-- ==== Sys2Proof/Word.lean ====
section
/-! DEFINITION. The two units every value of the engine is made of (spec 00_scope.md R10). -/

namespace Sys2Proof

/-- A byte: an unsigned integer 0..255 (R10). -/
abbrev Byte := BitVec 8

/-- A word: an unsigned integer 0..65535 (R10). -/
abbrev Word := BitVec 16

end Sys2Proof
end

