-- ==== Sys2Proof/Machine/Codec.lean ====
section
/-! DEFINITION. The wire codec and the function-code map (spec 40_checksum_codec.md R114 to R117, 30_encoding.md
R92 to R94, 00_scope.md R10). No state (R118). -/

namespace Sys2Proof.Machine

/-- `hi8(w) = w[15:8]` (R10). -/
def hi8 (w : Word) : Byte := w.extractLsb' 8 8

/-- `lo8(w) = w[7:0]` (R10). -/
def lo8 (w : Word) : Byte := w.extractLsb' 0 8

/-- `be16(h, l) = 256*h + l`: the byte at the lower index first (R10, R115). -/
def be16 (h l : Byte) : Word := h ++ l

/-- `enc16(w)`: high byte first (R114). -/
def enc16 (w : Word) : List Byte := [hi8 w, lo8 w]

/-- `ceil8(N)` (R10). -/
def ceil8 (n : Nat) : Nat := (n + 7) / 8

/-- The byte whose bit `k` is `g k`, for `k < 8`. -/
def byteOfBits (g : Nat → Bool) : Byte :=
  (List.range 8).foldl (fun acc k => acc ||| (if g k then BitVec.twoPow 8 k else 0#8)) 0#8

/-- `pack_bits` (R116): bit `i mod 8` of byte `i div 8` is the `i`-th boolean, every other bit is 0. -/
def packBits (bs : List Bool) : List Byte :=
  (List.range (ceil8 bs.length)).map fun j => byteOfBits fun k => bs.getD (8 * j + k) false

/-- `bit_at(d, i)` (R117), on a byte that is already picked out: bit `i mod 8`. -/
def bitOfByte (b : Byte) (i : Nat) : Bool := b.getLsbD (i % 8)

/-- `bit_at(d, i)` (R117); false beyond the end of `d`. -/
def bitAt (d : List Byte) (i : Nat) : Bool := bitOfByte (d.getD (i / 8) 0#8) i

/-- The function codes of the 8-byte requests (R92): 1 to 6. -/
def isFixed (fc : Byte) : Bool := decide (1 ≤ fc.toNat) && decide (fc.toNat ≤ 6)

/-- The function codes of the variable-length requests (R92): 15 and 16. -/
def isMultiple (fc : Byte) : Bool := fc == 0x0F#8 || fc == 0x10#8

/-- The eight recognized function codes (R93, R94). -/
def recognized (fc : Byte) : Bool := isFixed fc || isMultiple fc

end Sys2Proof.Machine
end

