-- ==== Sys2Proof/Machine/Checksum.lean ====
section
/-! DEFINITION. The checksum: generator and checker (spec 40_checksum_codec.md R110 to R113). No state (R118). -/

namespace Sys2Proof.Machine

/-- One of the eight shifts of R110: shift right, and XOR 0xA001 when a 1 was shifted out (log 19). -/
def crcShift (c : Word) : Word := if c.getLsbD 0 then (c >>> 1) ^^^ 0xA001#16 else c >>> 1

/-- Eight shifts (R110). -/
def crcShift8 (c : Word) : Word :=
  crcShift (crcShift (crcShift (crcShift (crcShift (crcShift (crcShift (crcShift c)))))))

/-- One byte of R110: XOR the byte, zero-extended, into the register, then eight shifts. -/
def crcByte (c : Word) (b : Byte) : Word := crcShift8 (c ^^^ b.setWidth 16)

/-- `crc16(s)` (R110): initial value 0xFFFF, the bytes in order of increasing index, no final XOR. -/
def crc16 (s : List Byte) : Word := s.foldl crcByte 0xFFFF#16

/-- The checksum as it goes on the wire: low byte, then high byte (R53, R113). -/
def crcBytes (s : List Byte) : List Byte := [lo8 (crc16 s), hi8 (crc16 s)]

/-- `append_crc(s)`, which is also `FRAME(...)` of R13 (R113). -/
def appendCrc (s : List Byte) : List Byte := s ++ crcBytes s

/-- `crc_ok(f)` (R112): the last two bytes are the checksum of the bytes before them. -/
def crcOk (f : List Byte) : Bool := f.drop (f.length - 2) == crcBytes (f.take (f.length - 2))

end Sys2Proof.Machine
end

