-- ==== Sys2Proof/Config.lean ====
section
/-! DEFINITION. What an instance of the engine fixes, and the free values: constants with no body, which no proof
can see (spec 00_scope.md R8, 10_state.md R37, 93_implementation_defined.md). -/

namespace Sys2Proof.Config

/-- BUF_CAP, the capacity of the accumulation buffer in bytes (R8, R21; the spec's own decision D2, log 24). -/
def bufCap : Nat := 255

/-- TX_CAP, the largest reply in bytes (R8, R204; the spec's own decision D2, log 24). -/
def txCap : Nat := 255

/-- The value State.reset gives the instance's table capacity TBL_CAP, which the spec leaves OPEN (R8).
DESIGN CHOICE 124, the bound of R9's envelope (log 7). Statements hold for every capacity. -/
def resetTblCap : Nat := 124

/-- The draws: the n-th unspecified byte the machine reads (R23, 93 U1, U10; log 10). A free value. -/
opaque freeByte : Nat → Byte

/-- What a buffer byte below `len` reads as in a state that has never stored it. No run reaches such a state
(log 9). A free value. -/
opaque unwrittenByte : Nat → Byte

/-- INSERT_OK_VALUE is this natural number: any value at least 0 (R8, 92 D14; log 26). A free value. -/
opaque insertOkMagnitude : Nat

/-- INSERT_FAIL_VALUE is minus (this natural number plus 1): any value below 0 (R8, 92 D14; log 26). A free value. -/
opaque insertFailMagnitude : Nat

end Sys2Proof.Config
end

