-- ==== Sys2Proof/Syntax.lean ====
section
/-! DEFINITION. The instructions: the requests of the function-code map and the unrecognized codes
(spec 30_encoding.md R93, R96). Operands stand in the order of the notation of R96. -/

namespace Sys2Proof

/-- One request frame, as the dispatcher sees it. `addr` is the slave-address byte (frame byte 0), `start` the first
register address, `qty` the number of registers, `bc` the declared byte count, `data` the data bytes. The checksum is
no operand: it follows from the other bytes (R80). -/
inductive Instr where
  /-- Function code 1 (R164). -/
  | readCoils (addr : Byte) (start qty : Word)
  /-- Function code 2 (R165). -/
  | readDiscreteInputs (addr : Byte) (start qty : Word)
  /-- Function code 3 (R166). -/
  | readHoldingRegisters (addr : Byte) (start qty : Word)
  /-- Function code 4 (R167). -/
  | readInputRegisters (addr : Byte) (start qty : Word)
  /-- Function code 5 (R180). -/
  | writeSingleCoil (addr : Byte) (start value : Word)
  /-- Function code 6 (R181). -/
  | writeSingleRegister (addr : Byte) (start value : Word)
  /-- Function code 15 (R182). -/
  | writeMultipleCoils (addr : Byte) (start qty : Word) (bc : Byte) (data : List Byte)
  /-- Function code 16 (R183). -/
  | writeMultipleRegisters (addr : Byte) (start qty : Word) (bc : Byte) (data : List Byte)
  /-- Every other value of byte 1: the twelve ILLEGAL_FUNCTION rows of the table (R94, R134; log 2). `addr` is the
  byte in front of it, which is never examined. -/
  | illegalFunction (addr fc : Byte)
  deriving DecidableEq, Repr

end Sys2Proof
end

