-- ==== Sys2Proof/WellFormed.lean ====
section
/-! DEFINITION. Which instructions have an encoding (spec 30_encoding.md R82, R94, R96). -/

namespace Sys2Proof

open Machine

/-- The data operand of a multiple write: `|d| = bc` (R96), and a frame of `bc + 9` bytes fits the buffer (R82). -/
def wellFormedData (bc : Byte) (data : List Byte) : Bool :=
  decide (data.length = bc.toNat) && decide (bc.toNat + 9 ≤ Config.bufCap)

/-- An instruction that some sequence of received bytes stands for. The 8-byte requests have no condition: no address,
quantity or value is out of range (R91, R98). ILLEGAL_FUNCTION stands for the unrecognized codes only (R94). -/
def wellFormed : Instr → Bool
  | .readCoils _ _ _ => true
  | .readDiscreteInputs _ _ _ => true
  | .readHoldingRegisters _ _ _ => true
  | .readInputRegisters _ _ _ => true
  | .writeSingleCoil _ _ _ => true
  | .writeSingleRegister _ _ _ => true
  | .writeMultipleCoils _ _ _ bc data => wellFormedData bc data
  | .writeMultipleRegisters _ _ _ bc data => wellFormedData bc data
  | .illegalFunction _ fc => !recognized fc

end Sys2Proof
end

