-- ==== Sys2Proof/Decode.lean ====
section
/-! DEFINITION. From the bytes in the buffer to an instruction, total, rejecting by name; then the encoder
(spec 30_encoding.md R80 to R82, R87, R92 to R97, 41_frame_assembler.md R132 to R136). -/

namespace Sys2Proof

open Machine

/-- Why a sequence of bytes is no request. -/
inductive Reject where
  /-- Fewer than two bytes: there is no function code yet (R132). -/
  | tooShort
  /-- The function code is recognized and the length is not the predicted one, too small or too large (R133, R135). -/
  | wrongLength
  /-- The frame is complete and its last two bytes are not its checksum (R153). -/
  | badChecksum
  deriving DecidableEq, Repr

/-- The completeness test of R133 for a recognized function code, in the form R136 gives it: byte 6 is read only
once it has been received. The sum does not wrap (R10). -/
def frameComplete (fc : Byte) (f : List Byte) : Bool :=
  if isFixed fc then f.length == 8
  else match f[6]? with
    | some bc => f.length == bc.toNat + 9
    | none => false

/-- The fields of a multiple write: `bc` bytes of data follow the byte count (R82). -/
def decodeMultiple (addr fc : Byte) (start qty : Word) (bc : Byte) (rest : List Byte) : Instr :=
  if fc = 0x0F#8 then .writeMultipleCoils addr start qty bc (rest.take bc.toNat)
  else .writeMultipleRegisters addr start qty bc (rest.take bc.toNat)

/-- The map of R93 for the 8-byte requests. -/
def decodeFixed (addr fc : Byte) (start qty : Word) : Instr :=
  if fc = 0x01#8 then .readCoils addr start qty
  else if fc = 0x02#8 then .readDiscreteInputs addr start qty
  else if fc = 0x03#8 then .readHoldingRegisters addr start qty
  else if fc = 0x04#8 then .readInputRegisters addr start qty
  else if fc = 0x05#8 then .writeSingleCoil addr start qty
  else .writeSingleRegister addr start qty

/-- Field assembly (R87): `start` and `qty` are big-endian. A frame too short for its fields is no complete frame. -/
def decodeFields (addr fc : Byte) : List Byte → Except Reject Instr
  | sh :: sl :: qh :: ql :: rest =>
    if isFixed fc then .ok (decodeFixed addr fc (be16 sh sl) (be16 qh ql))
    else match rest with
      | bc :: payload => .ok (decodeMultiple addr fc (be16 sh sl) (be16 qh ql) bc payload)
      | [] => .error .wrongLength
  | _ => .error .wrongLength

/-- What the received bytes stand for. The order is R239's: too short, unrecognized code (two bytes are enough, the
rest is not looked at), wrong length, checksum; the address byte is compared by the machine, which holds `slave_addr`
(log 13). -/
def decode (f : List Byte) : Except Reject Instr :=
  match f with
  | addr :: fc :: rest =>
    if recognized fc then
      if frameComplete fc f then
        if crcOk f then decodeFields addr fc rest else .error .badChecksum
      else .error .wrongLength
    else .ok (.illegalFunction addr fc)
  | _ => .error .tooShort

/-- Frame byte 0 of an instruction. -/
def instrAddr : Instr → Byte
  | .readCoils addr _ _ => addr
  | .readDiscreteInputs addr _ _ => addr
  | .readHoldingRegisters addr _ _ => addr
  | .readInputRegisters addr _ _ => addr
  | .writeSingleCoil addr _ _ => addr
  | .writeSingleRegister addr _ _ => addr
  | .writeMultipleCoils addr _ _ _ _ => addr
  | .writeMultipleRegisters addr _ _ _ _ => addr
  | .illegalFunction addr _ => addr

/-- Frame byte 1 of an instruction: the function code (R93). -/
def instrCode : Instr → Byte
  | .readCoils _ _ _ => 0x01#8
  | .readDiscreteInputs _ _ _ => 0x02#8
  | .readHoldingRegisters _ _ _ => 0x03#8
  | .readInputRegisters _ _ _ => 0x04#8
  | .writeSingleCoil _ _ _ => 0x05#8
  | .writeSingleRegister _ _ _ => 0x06#8
  | .writeMultipleCoils _ _ _ _ _ => 0x0F#8
  | .writeMultipleRegisters _ _ _ _ _ => 0x10#8
  | .illegalFunction _ fc => fc

/-- A request frame for one address: the eight requests. ILLEGAL_FUNCTION is answered for any address (R134). -/
def isRequest : Instr → Bool
  | .illegalFunction _ _ => false
  | _ => true

/-- Format RQ8 with its checksum (R81). -/
def encodeFixed (addr fc : Byte) (start qty : Word) : List Byte :=
  appendCrc ([addr, fc] ++ enc16 start ++ enc16 qty)

/-- Format RQM with its checksum (R82). -/
def encodeMultiple (addr fc : Byte) (start qty : Word) (bc : Byte) (data : List Byte) : List Byte :=
  appendCrc ([addr, fc] ++ enc16 start ++ enc16 qty ++ [bc] ++ data)

/-- The bytes a well-formed instruction stands for (the table of R96). ILLEGAL_FUNCTION has no frame: it acts on two
bytes (R134; log 29). -/
def encode : Instr → List Byte
  | .readCoils addr start qty => encodeFixed addr 0x01#8 start qty
  | .readDiscreteInputs addr start qty => encodeFixed addr 0x02#8 start qty
  | .readHoldingRegisters addr start qty => encodeFixed addr 0x03#8 start qty
  | .readInputRegisters addr start qty => encodeFixed addr 0x04#8 start qty
  | .writeSingleCoil addr start value => encodeFixed addr 0x05#8 start value
  | .writeSingleRegister addr start value => encodeFixed addr 0x06#8 start value
  | .writeMultipleCoils addr start qty bc data => encodeMultiple addr 0x0F#8 start qty bc data
  | .writeMultipleRegisters addr start qty bc data => encodeMultiple addr 0x10#8 start qty bc data
  | .illegalFunction addr fc => [addr, fc]

/-- The pseudo-instruction `WRITE_COILS s, a, [b0, ...]` (R97). -/
def writeCoils (addr : Byte) (start : Word) (bs : List Bool) : Instr :=
  .writeMultipleCoils addr start (BitVec.ofNat 16 bs.length) (BitVec.ofNat 8 (ceil8 bs.length)) (packBits bs)

/-- The pseudo-instruction `WRITE_REGISTERS s, a, [w0, ...]` (R97). -/
def writeRegisters (addr : Byte) (start : Word) (ws : List Word) : Instr :=
  .writeMultipleRegisters addr start (BitVec.ofNat 16 ws.length) (BitVec.ofNat 8 (2 * ws.length)) (ws.flatMap enc16)

/-- Byte `k` of an instruction whose bits are `w`, numbered as the opcode table numbers them: the table's bit 0 is
bit 0 of frame byte 1 ("match_applies_to: frame byte 1"), so byte 0 here is the function code; bits at and above
`nbits` are 0 (log 3). -/
def tableByte (nbits w k : Nat) : Byte := BitVec.ofNat 8 ((w % 2 ^ nbits) >>> (8 * k))

/-- The bytes received for an instruction of the table: the slave-address byte, which the table's bits do not cover, is
0x00; the operand bytes the table gives no bits are 0; the checksum is the frame's (log 3). -/
def tableFrame (nbits w : Nat) : List Byte :=
  let fc := tableByte nbits w 0
  let header := 0x00#8 :: fc :: (List.range 4).map (fun k => tableByte nbits w (k + 1))
  if isFixed fc then appendCrc header
  else if isMultiple fc then
    let bc := tableByte nbits w 5
    appendCrc (header ++ [bc] ++ (List.range bc.toNat).map (fun k => tableByte nbits w (k + 6)))
  else [0x00#8, fc]

/-- The instruction the decoder reads from an instruction of the opcode table. -/
def decodeTableWord (nbits w : Nat) : Option Instr :=
  match decode (tableFrame nbits w) with
  | .ok i => some i
  | .error _ => none

end Sys2Proof
end

