-- ==== Sys2Proof/Machine/State.lean ====
section
/-! DEFINITION. The state of the engine, of the host's cells and of the transport, as plain data; the events that move
it; why a step can stop; the state right after reset (spec 10_state.md). -/

namespace Sys2Proof.Machine

/-- The four register kinds (R26, R28), in the document's order. -/
inductive Kind where
  | coil
  | discreteInput
  | inputRegister
  | holdingRegister
  deriving DecidableEq, Repr

/-- A cell's handle, opaque (R26, R27). Boolean cells and word cells are numbered apart, so that an entry's kind says
which of the two its handle names and a mismatch cannot be written down (R27, R215 I4; log 17). -/
abbrev Handle := Nat

/-- A table entry (R26). `ref` names a boolean cell for Coil and DiscreteInput, a word cell for the other two. -/
structure Register where
  addr : Word
  kind : Kind
  ref : Handle
  deriving DecidableEq, Repr

/-- POLL's status (R31; the names other than NO_FRAME are the spec's own, D13). -/
inductive PollStatus where
  | noFrame
  | dropped
  | replied
  | exception
  deriving DecidableEq, Repr

/-- The output of the operation a step performed (R31). It is valid only as the result of that operation: every step
overwrites it and nothing reads it (log 11). -/
inductive OpResult where
  /-- The operation has no output: RESET, INIT, a cell mutation, a byte arrival. -/
  | none
  /-- POLL's status. -/
  | poll (status : PollStatus)
  /-- INSERT's bit `ins_ok`. -/
  | insert (ok : Bool)
  deriving DecidableEq, Repr

/-- The exception codes (R95). -/
inductive ExceptionCode where
  /-- Code 1: unrecognized function code (R231). -/
  | illegalFunction
  /-- Code 2: register missing, of the wrong kind, or above 0xFFFF (R232). -/
  | illegalDataAddress
  /-- Code 3: a name with a number and no cause (R233, R207; log 30). -/
  | illegalDataValue
  deriving DecidableEq, Repr

/-- One step of the host or of the environment (R38, R66). -/
inductive Event where
  /-- RESET (R260). -/
  | reset
  /-- INIT with SLAVE_ADDR (R261). -/
  | init (addr : Byte)
  /-- INSERT(a, K, h) (R216). -/
  | insert (addr : Word) (kind : Kind) (ref : Handle)
  /-- POLL (R130). -/
  | poll
  /-- The host changes a boolean cell between polls (R38, R265). -/
  | setBit (ref : Handle) (value : Bool)
  /-- The host changes a word cell between polls (R38, R265). -/
  | setWord (ref : Handle) (value : Word)
  /-- Bytes arrive at the transport between polls (R34). -/
  | arrive (bytes : List Byte)
  deriving DecidableEq, Repr

/-- The bytes of `buf`: pairs of an index and a byte, indices strictly rising. An index that is not listed has never
been stored since power-on and holds no value (R23; log 9). -/
abbrev Memory := List Host.Cell

/-- Everything the spec gives the machine. -/
structure State where
  /-- `buf` (R20, R21). -/
  buf : Memory
  /-- `len`, the number of valid bytes in `buf` (R22). -/
  len : Nat
  /-- `slave_addr` (R24). -/
  slaveAddr : Byte
  /-- TBL_CAP, the instance's table capacity: a parameter (R8, R37), which no step writes (log 7). -/
  tblCap : Nat
  /-- `tbl[0..tbl_count-1]` in insertion order; its length is `tbl_count` (R25). -/
  tbl : List Register
  /-- The boolean cells of the host that do not hold false, by rising handle (R27; log 8). -/
  bits : List (Nat × Bool)
  /-- The word cells of the host that do not hold 0x0000, by rising handle (R27; log 8). -/
  words : List (Nat × Word)
  /-- `rxq`, the received bytes not yet read (R34). -/
  rxq : List Byte
  /-- `txlog`, the frames written so far, oldest first (R34). -/
  txlog : List (List Byte)
  /-- What host and environment do next, the next event first; the model's own field (log 1). -/
  pending : List Event
  /-- The output of the step just taken; the model's own field (R31; log 11). -/
  result : OpResult
  /-- How many unspecified bytes have been drawn; the model's own field (R23; log 10). -/
  draws : Nat
  deriving DecidableEq, Repr

/-- Why the machine stops with a fault: never. "There is no fifth class: no event makes the engine halt, fault or
signal the host asynchronously" (R230, R243). -/
inductive Fault where
  deriving DecidableEq, Repr

/-- Why a step has no meaning. -/
inductive Refusal where
  /-- Raised by an arm of exec for an instruction that has no meaning yet. No arm does. Safe. -/
  | notModelled (mnemonic : String)
  /-- Raised by a read request all of whose registers resolve and whose reply of `length` bytes would be longer than
  TX_CAP: "the model refuses the run" (R169 c, R204, 93 U3; log 14). Safe. -/
  | replyTooLong (length : Nat)
  /-- Raised by a multiple write that reaches a data byte at a buffer index above BUF_CAP - 1: "outside the buffer and
  has no meaning at all: the model refuses the run" (R185, 93 U4; log 14). Safe. -/
  | dataBeyondBuffer (index : Nat)
  deriving DecidableEq, Repr

/-- Every step and meaning ends in one of these. -/
abbrev Outcome := Host.Outcome State Fault Refusal

/-- The machine right after reset (R36): `len` = 0, the table empty, no status held, no byte of `buf` specified.
`slaveAddr` (log 5), `tblCap` (log 7), the cells (log 8), `rxq` and `txlog` (log 16) and the model's own fields
(log 1, 10, 11) have the values the log names. -/
def State.reset : State where
  buf := []
  len := 0
  slaveAddr := 0x00#8
  tblCap := Config.resetTblCap
  tbl := []
  bits := []
  words := []
  rxq := []
  txlog := []
  pending := []
  result := .none
  draws := 0

end Sys2Proof.Machine
end

