-- ==== Sys2Proof/Machine/Flags.lean ====
section
/-! DEFINITION. The status outputs. The block has no condition codes and no sticky flags; its outputs are POLL's status
and INSERT's bit (spec 10_state.md R31; log 11). -/

namespace Sys2Proof.Machine

/-- POLL returns this status; the buffer is as it is (NO_FRAME, R132, R135). -/
def returnStatus (p : PollStatus) (s : State) : State := { s with result := .poll p }

/-- POLL returns this status after a frame was handled or discarded: `len <- 0`, which is a statement about `len` only
(R22, R134, R152, R168). -/
def finish (p : PollStatus) (s : State) : State := { s with len := 0, result := .poll p }

/-- The numbers of the four statuses (R31; the spec's own, D13). -/
def statusNumber : PollStatus → Nat
  | .noFrame => 0
  | .dropped => 1
  | .replied => 2
  | .exception => 3

/-- INSERT returns `ins_ok` (R216). -/
def returnInsert (ok : Bool) (s : State) : State := { s with result := .insert ok }

/-- What the surrounding software makes of `ins_ok`: a signed result, non-negative for accepted, negative for rejected
(R8, R31; log 26). -/
def insertReturn (ok : Bool) : Int :=
  if ok then Int.ofNat Config.insertOkMagnitude else Int.negSucc Config.insertFailMagnitude

end Sys2Proof.Machine
end

