-- ==== Sys2Proof/Machine/Store.lean ====
section
/-! DEFINITION. Sparse data by key, in one canonical form: keys strictly rising, and, where every key has a value, no
entry equal to the value of an unlisted key. The buffer and the two kinds of cells are kept this way. -/

namespace Sys2Proof.Machine

/-- The value listed at a key. -/
def listed {α : Type} (k : Nat) : List (Nat × α) → Option α
  | [] => none
  | (k', v) :: m => if k = k' then some v else listed k m

/-- List a value at a key, in its place. -/
def insertAt {α : Type} (k : Nat) (v : α) : List (Nat × α) → List (Nat × α)
  | [] => [(k, v)]
  | (k', v') :: m =>
    if k < k' then (k, v) :: (k', v') :: m
    else if k = k' then (k, v) :: m
    else (k', v') :: insertAt k v m

/-- List nothing at a key. -/
def removeAt {α : Type} (k : Nat) (m : List (Nat × α)) : List (Nat × α) := m.filter fun e => decide (e.1 ≠ k)

/-- Keys strictly rising. -/
def rising {α : Type} : List (Nat × α) → Bool
  | [] => true
  | [_] => true
  | (k, _) :: (k', v') :: m => decide (k < k') && rising ((k', v') :: m)

/-- The canonical form of the buffer: indices strictly rising. An unlisted index holds no value, so no entry can equal
what an unlisted index reads as. -/
def Memory.wf (m : Memory) : Bool := rising m

/-- The byte stored at an index of the buffer, none where nothing has been stored. -/
def Memory.read (m : Memory) (i : Nat) : Option Byte := listed i m

/-- Store one byte. -/
def Memory.write (m : Memory) (i : Nat) (b : Byte) : Memory := insertAt i b m

/-- `MemWrite(i, n, v)` (R12): the bytes in order from index `i` on. -/
def Memory.writeList (m : Memory) (i : Nat) : List Byte → Memory
  | [] => m
  | b :: bs => Memory.writeList (m.write i b) (i + 1) bs

/-- The value of a cell: an unlisted cell holds `d`. -/
def cellRead {α : Type} (d : α) (m : List (Nat × α)) (h : Handle) : α := (listed h m).getD d

/-- Write a cell; writing `d` removes the entry. -/
def cellWrite {α : Type} [DecidableEq α] (d : α) (m : List (Nat × α)) (h : Handle) (v : α) : List (Nat × α) :=
  if v = d then removeAt h m else insertAt h v m

/-- The canonical form of the cells. -/
def cellsWf {α : Type} [DecidableEq α] (d : α) (m : List (Nat × α)) : Bool :=
  rising m && m.all fun e => decide (e.2 ≠ d)

end Sys2Proof.Machine
end

