-- ==== Sys2Proof/Machine/Ops.lean ====
section
/-! DEFINITION. The operations every instruction is made of: draws, cells, the transport, the Register Table, and the
exception reply (spec 10_state.md R23, R27, R34, 43_dispatch_read.md R161, 45_response_encoder.md R200, R205,
46_register_table.md R216, R218). -/

namespace Sys2Proof.Machine

/-- A read of an unspecified byte: any value, fresh on every read (R23, 93 U1; log 10). -/
def drawByte (s : State) : Byte × State := (Config.freeByte s.draws, { s with draws := s.draws + 1 })

/-- `x[h]` for a boolean cell (R12, R27). -/
def readBit (s : State) (h : Handle) : Bool := cellRead false s.bits h

/-- `x[h]` for a word cell (R12, R27). -/
def readWord (s : State) (h : Handle) : Word := cellRead 0x0000#16 s.words h

/-- `x[h] <- v` for a boolean cell (R12, R27). -/
def writeBit (h : Handle) (v : Bool) (s : State) : State := { s with bits := cellWrite false s.bits h v }

/-- `x[h] <- v` for a word cell (R12, R27). -/
def writeWord (h : Handle) (v : Word) (s : State) : State := { s with words := cellWrite 0x0000#16 s.words h v }

/-- `rx_avail()` (R33, R34). -/
def rxAvail (s : State) : Nat := s.rxq.length

/-- `rx_flush()`: the queue becomes empty (R33, R34). -/
def rxFlush (s : State) : State := { s with rxq := [] }

/-- `tx_write(bytes)`, the whole effect of `reply(f)`: one whole frame is appended to the log (R34, R200). -/
def txWrite (f : List Byte) (s : State) : State := { s with txlog := s.txlog ++ [f] }

/-- `lookup(a)`: the first entry with this address, whatever its kind (R218). -/
def lookup (a : Word) (s : State) : Option Register := s.tbl.find? fun e => e.addr == a

/-- `resolve(a, K)` (R161): the handle, or none when `a` is above 0xFFFF (log 22), absent, or of another kind. The
three causes are not told apart. -/
def resolve (a : Nat) (k : Kind) (s : State) : Option Handle :=
  if a > 0xFFFF then none
  else match lookup (BitVec.ofNat 16 a) s with
    | none => none
    | some e => if e.kind = k then some e.ref else none

/-- The number of an exception code (R95). -/
def exceptionByte : ExceptionCode → Byte
  | .illegalFunction => 0x01#8
  | .illegalDataAddress => 0x02#8
  | .illegalDataValue => 0x03#8

/-- The exception frame (R86, R205): the engine's own address (log 21), the function code with bit 7 set, the code. -/
def exceptionFrame (e : ExceptionCode) (fc : Byte) (s : State) : List Byte :=
  appendCrc [s.slaveAddr, fc ||| 0x80#8, exceptionByte e]

/-- `raise E(fc)`: TAKING AN EXCEPTION, the one shared operation (R205, R240). It is a reply on the wire: nothing is
saved, no mode changes, control goes nowhere, and so there is no return from it (R242). -/
def raise (e : ExceptionCode) (fc : Byte) (s : State) : State := txWrite (exceptionFrame e fc s) s

/-- The end of a handler whose register does not resolve (R160, R168, R232): the IllegalDataAddress reply, no flush,
`len <- 0`. -/
def raiseAddress (fc : Byte) (s : State) : Outcome := .next (finish .exception (raise .illegalDataAddress fc s))

/-- The end of a handler that sends a normal reply (R168): one `tx_write`, no flush, `len <- 0`. -/
def replyNormal (f : List Byte) (s : State) : Outcome := .next (finish .replied (txWrite f s))

end Sys2Proof.Machine
end

