-- ==== Sys2Proof/Machine/Assembler.lean ====
section
/-! DEFINITION. The front of POLL: the drain, the Frame Assembler and the Frame Validator, up to the instruction to run
(spec 41_frame_assembler.md R130 to R138, 42_frame_validator.md R150 to R155). -/

namespace Sys2Proof.Machine

/-- A valid byte of the buffer, `i < len` (R21). -/
def bufByte (s : State) (i : Nat) : Byte := (s.buf.read i).getD (Config.unwrittenByte i)

/-- `buf[0..len-1]`. -/
def bufBytes (s : State) : List Byte := (List.range s.len).map (bufByte s)

/-- `n = min(rx_avail(), BUF_CAP - len)`, the number of bytes a drain takes (R131). -/
def drainCount (s : State) : Nat := min (rxAvail s) (Config.bufCap - s.len)

/-- The drain (R131): the first `n` bytes of `rxq` move to `buf[len..len+n-1]`; the rest stays in `rxq`. -/
def drain (s : State) : State :=
  let n := drainCount s
  { s with buf := s.buf.writeList s.len (s.rxq.take n), len := s.len + n, rxq := s.rxq.drop n }

/-- What the front of POLL comes to. -/
inductive Fetched where
  /-- POLL ends here. -/
  | idle (s : State)
  /-- An instruction to run. -/
  | run (i : Instr) (s : State)
  deriving DecidableEq, Repr

/-- The silent drop (R152): `len <- 0`, no reply, no flush (log 23). -/
def dropFrame (s : State) : State := finish .dropped s

/-- The address check (R151): plain equality of two bytes. ILLEGAL_FUNCTION comes before it (R134). -/
def addressed (i : Instr) (s : State) : Bool := !isRequest i || instrAddr i == s.slaveAddr

/-- Steps 1 to 4 of POLL (R130): drain; too short or not complete (R132, R135); address (R151) and checksum (R153), the
two rejections having one effect (R150; log 13). -/
def fetch (s : State) : Fetched :=
  let s1 := drain s
  match decode (bufBytes s1) with
  | .error .tooShort => .idle (returnStatus .noFrame s1)
  | .error .wrongLength => .idle (returnStatus .noFrame s1)
  | .error .badChecksum => .idle (dropFrame s1)
  | .ok i => if addressed i s1 then .run i s1 else .idle (dropFrame s1)

end Sys2Proof.Machine
end

