-- ==== Sys2Proof/Machine/Illegal.lean ====
section
/-! DEFINITION. The unrecognized function codes (spec 41_frame_assembler.md R134, 60_exceptions.md R231). -/

namespace Sys2Proof.Machine

/-- ILLEGAL_FUNCTION (R134): the IllegalFunction reply, then `rx_flush()`, then `len <- 0`. The byte in front of the
function code is not examined; no cell is touched and the table is not consulted (R231). -/
def execIllegalFunction (_addr fc : Byte) (s : State) : Outcome :=
  .next (finish .exception (rxFlush (raise .illegalFunction fc s)))

end Sys2Proof.Machine
end

