-- ==== Sys2Proof/Machine/Operands.lean ====
section
/-! DEFINITION. Where a handler's operands come from: the value field of code 5, the data of codes 15 and 16
(spec 30_encoding.md R88 to R90, 44_write.md R185). -/

namespace Sys2Proof.Machine

/-- `coil_decode(value)` (R88; the spec's own decision D9, log 20). -/
def coilDecode (value : Word) : Bool := value != 0x0000#16

/-- A byte of the request by its buffer index, for a request whose frame is `f` (R185): below `len` the frame's own
byte, its two checksum bytes among them; from `len` on a draw; beyond the buffer no meaning at all. The frame in the
buffer is the instruction's encoding (log 12). -/
def requestByte (f : List Byte) (j : Nat) (s : State) : Except Refusal (Byte × State) :=
  if j ≥ Config.bufCap then .error (.dataBeyondBuffer j)
  else match f[j]? with
    | some b => .ok (b, s)
    | none => .ok (drawByte s)

/-- Code 15, register `i` with cell `h` (R89, R182): bit `i mod 8` of byte `7 + i div 8`. -/
def storeCoil (f : List Byte) (i : Nat) (h : Handle) (s : State) : Except Refusal State :=
  match requestByte f (7 + i / 8) s with
  | .error r => .error r
  | .ok (b, s') => .ok (writeBit h (bitOfByte b i) s')

/-- Code 16, register `i` with cell `h` (R90, R183): bytes `7 + 2*i` and `8 + 2*i`, high byte first. -/
def storeRegister (f : List Byte) (i : Nat) (h : Handle) (s : State) : Except Refusal State :=
  match requestByte f (7 + 2 * i) s with
  | .error r => .error r
  | .ok (hi, s') =>
    match requestByte f (8 + 2 * i) s' with
    | .error r => .error r
    | .ok (lo, s'') => .ok (writeWord h (be16 hi lo) s'')

end Sys2Proof.Machine
end

