-- ==== Sys2Proof/Machine/Read.lean ====
section
/-! DEFINITION. The read handlers, function codes 1 to 4 (spec 43_dispatch_read.md R160, R164 to R169). -/

namespace Sys2Proof.Machine

/-- The iteration of R160 for a read: for `i`, `i+1`, ... (`n` registers) resolve address `start + i`, then read the
cell; none at the first register that does not resolve. -/
def readEach {α : Type} (read : Handle → α) (k : Kind) (start : Nat) (s : State) : Nat → Nat → Option (List α)
  | _, 0 => some []
  | i, n + 1 =>
    match resolve (start + i) k s with
    | none => none
    | some h =>
      match readEach read k start s (i + 1) n with
      | none => none
      | some vs => some (read h :: vs)

/-- The reply to a read (R83, R201): address and function code copied from the request, the number of data bytes
(log 18), the data, the checksum. A reply above TX_CAP has no meaning (R169 c; log 14). -/
def replyData (addr fc : Byte) (d : List Byte) (s : State) : Outcome :=
  if d.length + 5 > Config.txCap then .refused (.replyTooLong (d.length + 5))
  else replyNormal (appendCrc ([addr, fc, BitVec.ofNat 8 d.length] ++ d)) s

/-- Codes 1 and 2: packed bits (R116). -/
def readBits (k : Kind) (addr fc : Byte) (start qty : Word) (s : State) : Outcome :=
  match readEach (readBit s) k start.toNat s 0 qty.toNat with
  | none => raiseAddress fc s
  | some bs => replyData addr fc (packBits bs) s

/-- Codes 3 and 4: big-endian words in ascending address order (R114). -/
def readWords (k : Kind) (addr fc : Byte) (start qty : Word) (s : State) : Outcome :=
  match readEach (readWord s) k start.toNat s 0 qty.toNat with
  | none => raiseAddress fc s
  | some ws => replyData addr fc (ws.flatMap enc16) s

/-- READ_COILS (R164). -/
def execReadCoils (addr : Byte) (start qty : Word) (s : State) : Outcome :=
  readBits .coil addr 0x01#8 start qty s

/-- READ_DISCRETE_INPUTS (R165). -/
def execReadDiscreteInputs (addr : Byte) (start qty : Word) (s : State) : Outcome :=
  readBits .discreteInput addr 0x02#8 start qty s

/-- READ_HOLDING_REGISTERS (R166). -/
def execReadHoldingRegisters (addr : Byte) (start qty : Word) (s : State) : Outcome :=
  readWords .holdingRegister addr 0x03#8 start qty s

/-- READ_INPUT_REGISTERS (R167). -/
def execReadInputRegisters (addr : Byte) (start qty : Word) (s : State) : Outcome :=
  readWords .inputRegister addr 0x04#8 start qty s

end Sys2Proof.Machine
end

