-- ==== Sys2Proof/Machine/Write.lean ====
section
/-! DEFINITION. The write handlers, function codes 5, 6, 15 and 16 (spec 44_write.md R180 to R187). -/

namespace Sys2Proof.Machine

/-- WRITE_SINGLE_COIL (R180): the reply echoes the request (R84, R202). -/
def execWriteSingleCoil (addr : Byte) (start value : Word) (s : State) : Outcome :=
  match resolve start.toNat .coil s with
  | none => raiseAddress 0x05#8 s
  | some h => replyNormal (encode (.writeSingleCoil addr start value)) (writeBit h (coilDecode value) s)

/-- WRITE_SINGLE_REGISTER (R181): the reply echoes the request (R84, R202). -/
def execWriteSingleRegister (addr : Byte) (start value : Word) (s : State) : Outcome :=
  match resolve start.toNat .holdingRegister s with
  | none => raiseAddress 0x06#8 s
  | some h => replyNormal (encode (.writeSingleRegister addr start value)) (writeWord h value s)

/-- How the iteration of a multiple write ends. -/
inductive WriteEnd where
  /-- Every register was written. -/
  | done (s : State)
  /-- A register did not resolve; the earlier ones are written (R184). -/
  | missing (s : State)
  /-- A data byte lies beyond the buffer (R185). -/
  | beyond (r : Refusal)
  deriving DecidableEq, Repr

/-- The iteration of R160 for a write: for `i`, `i+1`, ... (`n` registers) resolve address `start + i`, then write the
cell; the first register that does not resolve ends it, and nothing is rolled back (R184). -/
def writeEach (k : Kind) (start : Nat) (store : Nat → Handle → State → Except Refusal State) :
    Nat → Nat → State → WriteEnd
  | _, 0, s => .done s
  | i, n + 1, s =>
    match resolve (start + i) k s with
    | none => .missing s
    | some h =>
      match store i h s with
      | .error r => .beyond r
      | .ok s' => writeEach k start store (i + 1) n s'

/-- What follows the iteration: the first six bytes of the request with a fresh checksum (R85, R203), or the exception
reply (R205). -/
def replyMultiple (fc : Byte) (f : List Byte) : WriteEnd → Outcome
  | .done s => replyNormal (appendCrc (f.take 6)) s
  | .missing s => raiseAddress fc s
  | .beyond r => .refused r

/-- WRITE_MULTIPLE_COILS (R182). -/
def execWriteMultipleCoils (addr : Byte) (start qty : Word) (bc : Byte) (data : List Byte) (s : State) : Outcome :=
  let f := encode (.writeMultipleCoils addr start qty bc data)
  replyMultiple 0x0F#8 f (writeEach .coil start.toNat (storeCoil f) 0 qty.toNat s)

/-- WRITE_MULTIPLE_REGISTERS (R183). -/
def execWriteMultipleRegisters (addr : Byte) (start qty : Word) (bc : Byte) (data : List Byte) (s : State) : Outcome :=
  let f := encode (.writeMultipleRegisters addr start qty bc data)
  replyMultiple 0x10#8 f (writeEach .holdingRegister start.toNat (storeRegister f) 0 qty.toNat s)

end Sys2Proof.Machine
end

