-- ==== Sys2Proof/Machine/Dispatch.lean ====
section
/-! DEFINITION. The Request Dispatcher: one arm per instruction (spec 43_dispatch_read.md R162). -/

namespace Sys2Proof.Machine

def exec (i : Instr) (s : State) : Host.Outcome State Fault Refusal :=
  match i with
  | .readCoils addr start qty => Sys2Proof.Machine.execReadCoils addr start qty s
  | .readDiscreteInputs addr start qty => Sys2Proof.Machine.execReadDiscreteInputs addr start qty s
  | .readHoldingRegisters addr start qty => Sys2Proof.Machine.execReadHoldingRegisters addr start qty s
  | .readInputRegisters addr start qty => Sys2Proof.Machine.execReadInputRegisters addr start qty s
  | .writeSingleCoil addr start value => Sys2Proof.Machine.execWriteSingleCoil addr start value s
  | .writeSingleRegister addr start value => Sys2Proof.Machine.execWriteSingleRegister addr start value s
  | .writeMultipleCoils addr start qty bc data => Sys2Proof.Machine.execWriteMultipleCoils addr start qty bc data s
  | .writeMultipleRegisters addr start qty bc data => Sys2Proof.Machine.execWriteMultipleRegisters addr start qty bc data s
  | .illegalFunction addr fc => Sys2Proof.Machine.execIllegalFunction addr fc s

end Sys2Proof.Machine
end

