-- ==== Sys2Proof/Machine/HostOps.lean ====
section
/-! DEFINITION. The operations of the host other than POLL, and the arrival of bytes (spec 46_register_table.md R216,
70_reset_and_hazards.md R260, R261, 10_state.md R34, R38). -/

namespace Sys2Proof.Machine

/-- An operation without an output (R31). -/
def returnNothing (s : State) : State := { s with result := .none }

/-- RESET (R260, R36): the buffer and the table become empty. Cells, `rxq` and `txlog` are not touched, TBL_CAP is no
register; `slave_addr` has no defined value until INIT, so a draw (R261, 93 U10; log 5).The bytes of `buf` stay listed above
`len` and are never read (DESIGN CHOICE, log 9). -/
def resetEngine (s : State) : State :=
  returnNothing { s with len := 0, tbl := [], slaveAddr := (drawByte s).1, draws := s.draws + 1 }

/-- INIT (R261): no value is rejected. -/
def initEngine (addr : Byte) (s : State) : State := returnNothing { s with slaveAddr := addr }

/-- INSERT accepts: the table is not full and no entry has the address, whatever its kind (R216). -/
def insertAccepts (a : Word) (s : State) : Bool :=
  decide (s.tbl.length < s.tblCap) && s.tbl.all fun e => e.addr != a

/-- INSERT(a, K, h) (R216, R217): append the entry, or change nothing. -/
def insertRegister (a : Word) (k : Kind) (h : Handle) (s : State) : State :=
  if insertAccepts a s then returnInsert true { s with tbl := s.tbl ++ [⟨a, k, h⟩] } else returnInsert false s

/-- The host changes a boolean cell (R38). -/
def hostSetBit (h : Handle) (v : Bool) (s : State) : State := returnNothing (writeBit h v s)

/-- The host changes a word cell (R38). -/
def hostSetWord (h : Handle) (v : Word) (s : State) : State := returnNothing (writeWord h v s)

/-- Bytes arrive (R34): they are appended to `rxq`. -/
def arriveBytes (bytes : List Byte) (s : State) : State := returnNothing { s with rxq := s.rxq ++ bytes }

end Sys2Proof.Machine
end

