-- ==== Sys2Proof/Machine/Step.lean ====
section
/-! DEFINITION. One step of the machine (spec 10_state.md R38, 20_memory.md R66). -/

namespace Sys2Proof.Machine

/-- POLL (R130): the front, then the handler. -/
def poll (s : State) : Host.Outcome State Fault Refusal :=
  match fetch s with
  | .idle s' => .next s'
  | .run i s' => exec i s'

/-- One event. -/
def perform (e : Event) (s : State) : Host.Outcome State Fault Refusal :=
  match e with
  | .reset => .next (resetEngine s)
  | .init addr => .next (initEngine addr s)
  | .insert addr kind ref => .next (insertRegister addr kind ref s)
  | .poll => poll s
  | .setBit ref value => .next (hostSetBit ref value s)
  | .setWord ref value => .next (hostSetWord ref value s)
  | .arrive bytes => .next (arriveBytes bytes s)

/-- One step: the next event of `pending`; when none is left the host goes on calling POLL (R263; log 1). -/
def step (s : State) : Host.Outcome State Fault Refusal :=
  match s.pending with
  | [] => poll s
  | e :: es => perform e { s with pending := es }

/-- `s` with one instruction of the opcode table received and a POLL next: the buffer is empty, `rxq` holds exactly the
frame, `slave_addr` is the frame's address byte 0x00 as after INIT (log 3, 4). -/
def State.withFetchWord (s : State) (nbits w : Nat) : State :=
  { s with len := 0, slaveAddr := 0x00#8, rxq := tableFrame nbits w, pending := .poll :: s.pending }

end Sys2Proof.Machine
end

