-- ==== Sys2Proof/Safety.lean ====
section
/-! DEFINITION. What the claims are stated in terms of: the invariants of the state, the envelope in which no run is
refused, the stalled states (spec 46_register_table.md R215, 10_state.md R22, 00_scope.md R9, 70_reset_and_hazards.md
R268). -/

namespace Sys2Proof

open Machine

/-- The table: R215 I1 and I2. I4 holds by the type of an entry (log 17); I3 is about steps. -/
abbrev TableOk (s : State) : Prop := s.tbl.length ≤ s.tblCap ∧ (s.tbl.map Register.addr).Nodup

/-- The buffer: `len` within the buffer (R22), its bytes in canonical form at indices 0..254 (R21), every valid byte
stored. -/
abbrev BufferOk (s : State) : Prop :=
  s.len ≤ Config.bufCap ∧ Memory.wf s.buf = true ∧ (s.buf.all fun c => decide (c.1 < Config.bufCap)) = true ∧
    ∀ i, i < s.len → (s.buf.read i).isSome = true

/-- The cells in canonical form. -/
abbrev CellsOk (s : State) : Prop := cellsWf false s.bits = true ∧ cellsWf 0x0000#16 s.words = true

/-- The invariant of the machine. -/
abbrev Inv (s : State) : Prop := BufferOk s ∧ TableOk s ∧ CellsOk s

/-- A frame the engine may send: 5 to 255 bytes, the last two the checksum of the others (R80, R204). -/
abbrev FrameOk (f : List Byte) : Prop := 5 ≤ f.length ∧ f.length ≤ Config.txCap ∧ crcOk f = true

/-- The envelope of R9. -/
abbrev Envelope (s : State) : Prop := s.tblCap ≤ 124

/-- The function codes of the 8-byte requests (R92). -/
abbrev FixedCode (fc : Byte) : Prop := fc ∈ [0x01#8, 0x02#8, 0x03#8, 0x04#8, 0x05#8, 0x06#8]

/-- The function codes of the variable-length requests (R92). -/
abbrev MultipleCode (fc : Byte) : Prop := fc ∈ [0x0F#8, 0x10#8]

/-- The buffer holds exactly one frame of the predicted length (R133, R136). -/
abbrev Complete (s : State) : Prop :=
  2 ≤ s.len ∧ ((FixedCode (bufByte s 1) ∧ s.len = 8) ∨
    (MultipleCode (bufByte s 1) ∧ 7 ≤ s.len ∧ s.len = (bufByte s 6).toNat + 9))

/-- A recognized code, and not the predicted length (R135). -/
abbrev Incomplete (s : State) : Prop :=
  2 ≤ s.len ∧ ((FixedCode (bufByte s 1) ∧ s.len ≠ 8) ∨
    (MultipleCode (bufByte s 1) ∧ (s.len < 7 ∨ s.len ≠ (bufByte s 6).toNat + 9)))

/-- A stalled state (R268). -/
abbrev Stalled (s : State) : Prop :=
  (FixedCode (bufByte s 1) ∧ 8 < s.len) ∨
    (MultipleCode (bufByte s 1) ∧ 7 ≤ s.len ∧
      ((bufByte s 6).toNat + 9 < s.len ∨ Config.bufCap < (bufByte s 6).toNat + 9))

/-- The next step is a POLL, and `s0` is the state it starts from: the event is taken off `pending`, or none is left
(R263; log 1). -/
abbrev PollNext (s s0 : State) : Prop :=
  (s.pending = [] ∧ s0 = s) ∨ s.pending = .poll :: s0.pending ∧ s0 = { s with pending := s0.pending }

/-- The `n` registers from `start` on all resolve as kind `k`, register `i` to the cell `hs i` (R161). -/
abbrev ResolvesTo (s : State) (k : Kind) (start : Word) (n : Nat) (hs : Nat → Handle) : Prop :=
  ∀ i, i < n → resolve (start.toNat + i) k s = some (hs i)

/-- Register `m` is the first one from `start` on that does not resolve as kind `k` (R160). -/
abbrev FailsFirstAt (s : State) (k : Kind) (start : Word) (m : Nat) : Prop :=
  (∀ i, i < m → (resolve (start.toNat + i) k s).isSome = true) ∧ resolve (start.toNat + m) k s = none

end Sys2Proof
end

