-- ==== Sys2Proof/Certificates/Slice0/Obligations.lean ====
section
/-! DEFINITION. The statements for the provers. Each docstring names the rule of spec/ it formalises, and the clauses
that rest on a decision of the spec's own (D<n> of 92_eei_decisions.md) or of the model (log <n>). -/

section

open Sys2Proof Sys2Proof.Machine

/-! ## Encoding -/

/-- Words written out from the tables of 30_encoding.md decode to the instructions they stand for: frame bytes are
written out, the checksum bytes are those of 95_test_vectors.md. -/
def Obligations.SpecWordsDecode : Prop :=
  decode [0x11#8, 0x01#8, 0x00#8, 0x13#8, 0x00#8, 0x0A#8, 0x4F#8, 0x58#8] = .ok (.readCoils 0x11#8 0x0013#16 0x000A#16) ∧
  decode [0x11#8, 0x06#8, 0x00#8, 0x01#8, 0xFF#8, 0xFF#8, 0xDB#8, 0x2A#8] =
    .ok (.writeSingleRegister 0x11#8 0x0001#16 0xFFFF#16) ∧
  decode [0x11#8, 0x0F#8, 0x00#8, 0x13#8, 0x00#8, 0x0A#8, 0x02#8, 0xCD#8, 0x01#8, 0xBF#8, 0x0B#8] =
    .ok (.writeMultipleCoils 0x11#8 0x0013#16 0x000A#16 0x02#8 [0xCD#8, 0x01#8]) ∧
  decode [0x22#8, 0x2B#8, 0x0E#8, 0x01#8, 0x00#8, 0x70#8, 0x77#8] = .ok (.illegalFunction 0x22#8 0x2B#8)

/-- The opcode table: the recognized codes name their instructions (R93) and each of the other 248 values of byte 1 is
ILLEGAL_FUNCTION (R94). The operand bytes the table gives no bits are 0 (log 3). -/
def Obligations.OpcodeTableDecodes : Prop :=
  ∀ fc : Byte, decodeTableWord 8 fc.toNat = some (
    if fc = 0x01#8 then .readCoils 0#8 0#16 0#16
    else if fc = 0x02#8 then .readDiscreteInputs 0#8 0#16 0#16
    else if fc = 0x03#8 then .readHoldingRegisters 0#8 0#16 0#16
    else if fc = 0x04#8 then .readInputRegisters 0#8 0#16 0#16
    else if fc = 0x05#8 then .writeSingleCoil 0#8 0#16 0#16
    else if fc = 0x06#8 then .writeSingleRegister 0#8 0#16 0#16
    else if fc = 0x0F#8 then .writeMultipleCoils 0#8 0#16 0#16 0#8 []
    else if fc = 0x10#8 then .writeMultipleRegisters 0#8 0#16 0#16 0#8 []
    else .illegalFunction 0#8 fc)

/-- Every well-formed instruction is what its encoding decodes to (R81, R82, R87, R96). -/
def Obligations.DecodeOfEncode : Prop :=
  ∀ i : Instr, wellFormed i = true → decode (encode i) = .ok i

/-- The other direction: a frame that fits the buffer and decodes to a request is that request's encoding, and the
request is well-formed; the handlers may therefore take the frame's bytes from the instruction (log 12). -/
def Obligations.EncodeOfDecode : Prop :=
  ∀ (f : List Byte) (i : Instr), f.length ≤ Config.bufCap → decode f = .ok i →
    wellFormed i = true ∧ (isRequest i = true → encode i = f)

/-- Which byte sequences are no request, each with its name (R132, R133, R135, R153). -/
def Obligations.DecodeRejectsByName : Prop :=
  ∀ f : List Byte,
    (decode f = .error .tooShort ↔ f.length < 2) ∧
    (decode f = .error .wrongLength ↔ 2 ≤ f.length ∧
      ((FixedCode (f.getD 1 0#8) ∧ f.length ≠ 8) ∨
        (MultipleCode (f.getD 1 0#8) ∧ (f.length < 7 ∨ f.length ≠ (f.getD 6 0#8).toNat + 9)))) ∧
    (decode f = .error .badChecksum ↔ 2 ≤ f.length ∧ crcOk f = false ∧
      ((FixedCode (f.getD 1 0#8) ∧ f.length = 8) ∨
        (MultipleCode (f.getD 1 0#8) ∧ 7 ≤ f.length ∧ f.length = (f.getD 6 0#8).toNat + 9)))

/-! ## Checksum and codec -/

/-- R111 (a), with the wire bytes of R53, and the corner case of R110. -/
def Obligations.ChecksumReferenceVector : Prop :=
  crc16 [0x01#8, 0x03#8, 0x00#8, 0x00#8, 0x00#8, 0x0A#8] = 0xCDC5#16 ∧
  appendCrc [0x01#8, 0x03#8, 0x00#8, 0x00#8, 0x00#8, 0x0A#8] =
    [0x01#8, 0x03#8, 0x00#8, 0x00#8, 0x00#8, 0x0A#8, 0xC5#8, 0xCD#8] ∧
  crc16 [] = 0xFFFF#16

/-- R111 (b), which the spec derives: the checksum changes if any one byte changes. -/
def Obligations.ChecksumSeesOneChangedByte : Prop :=
  ∀ (p q : List Byte) (x y : Byte), x ≠ y → crc16 (p ++ x :: q) ≠ crc16 (p ++ y :: q)

/-- R111 (c), which the spec derives: the residue of a sequence with its checksum is 0. -/
def Obligations.ChecksumResidueIsZero : Prop :=
  ∀ s : List Byte, crc16 (s ++ [lo8 (crc16 s), hi8 (crc16 s)]) = 0x0000#16

/-- R112 and R113: the generator appends the checksum, low byte first, and the checker accepts a sequence exactly when
its last two bytes are what the generator appends to the bytes before them. -/
def Obligations.CheckerAcceptsWhatGeneratorMakes : Prop :=
  (∀ s : List Byte, appendCrc s = s ++ [lo8 (crc16 s), hi8 (crc16 s)]) ∧
  ∀ f : List Byte, 2 ≤ f.length →
    (crcOk f = true ↔ f.getD (f.length - 2) 0#8 = lo8 (crc16 (f.take (f.length - 2))) ∧
      f.getD (f.length - 1) 0#8 = hi8 (crc16 (f.take (f.length - 2))))

/-- R116, R117 and R54: how booleans are packed, the unused bits being 0, and that bit_at undoes it. -/
def Obligations.PackedBitsStandWhereTheRuleSays : Prop :=
  ∀ bs : List Bool,
    (packBits bs).length = (bs.length + 7) / 8 ∧
    (∀ i, i < bs.length → ((packBits bs).getD (i / 8) 0#8).getLsbD (i % 8) = bs.getD i false) ∧
    (∀ j k, k < 8 → bs.length ≤ 8 * j + k → ((packBits bs).getD j 0#8).getLsbD k = false) ∧
    (∀ i, i < bs.length → bitAt (packBits bs) i = bs.getD i false)

/-- R114 and R115: words are big-endian and the two directions of the codec undo each other. -/
def Obligations.WordCodecIsBigEndian : Prop :=
  (∀ w : Word, enc16 w = [BitVec.ofNat 8 (w.toNat / 256), BitVec.ofNat 8 (w.toNat % 256)]) ∧
  (∀ h l : Byte, (be16 h l).toNat = 256 * h.toNat + l.toNat) ∧
  (∀ w : Word, be16 ((enc16 w).getD 0 0#8) ((enc16 w).getD 1 0#8) = w) ∧
  (∀ h l : Byte, enc16 (be16 h l) = [h, l])

/-! ## The Register Table -/

/-- R218: lookup returns the first entry with the address, whatever its kind, or nothing. -/
def Obligations.LookupReturnsTheFirstMatch : Prop :=
  ∀ (a : Word) (s : State),
    (∀ e : Register, lookup a s = some e ↔
      ∃ p q : List Register, s.tbl = p ++ e :: q ∧ e.addr = a ∧ ∀ e' ∈ p, e'.addr ≠ a) ∧
    (lookup a s = none ↔ ∀ e ∈ s.tbl, e.addr ≠ a)

/-- R161: what resolves, in a table of distinct addresses (R215 I2). That an address above 0xFFFF fails is the spec's own
decision D10 (log 22). -/
def Obligations.ResolveFindsTheRegisteredCell : Prop :=
  ∀ (a : Nat) (k : Kind) (h : Handle) (s : State), TableOk s →
    (resolve a k s = some h ↔ a ≤ 0xFFFF ∧ (⟨BitVec.ofNat 16 a, k, h⟩ : Register) ∈ s.tbl)

/-- R216: INSERT appends the entry unless the table is full or the address exists, whatever its kind; otherwise it
changes nothing (R217). The bit `ins_ok` is shown in `result` (D14, log 11). -/
def Obligations.InsertAppendsOrChangesNothing : Prop :=
  ∀ (s : State) (a : Word) (k : Kind) (h : Handle) (es : List Event), s.pending = .insert a k h :: es →
    (s.tbl.length < s.tblCap → (∀ e ∈ s.tbl, e.addr ≠ a) →
      step s = .next { s with tbl := s.tbl ++ [⟨a, k, h⟩], pending := es, result := .insert true }) ∧
    (s.tblCap ≤ s.tbl.length ∨ (∃ e ∈ s.tbl, e.addr = a) →
      step s = .next { s with pending := es, result := .insert false })

/-- R217: a rejected INSERT changes nothing; beyond the capacity INSERT is rejected; the same address a second time is
rejected; what was inserted is found at its address and no other address finds anything new. -/
def Obligations.InsertedRegisterIsRetrievable : Prop :=
  ∀ (s t : State) (a : Word) (k : Kind) (h : Handle) (es : List Event), s.pending = .insert a k h :: es →
    step s = .next t →
      (t.result = .insert false → t = { s with pending := es, result := .insert false }) ∧
      (s.tblCap ≤ s.tbl.length → t.result = .insert false) ∧
      (t.result = .insert true →
        lookup a t = some ⟨a, k, h⟩ ∧ (∀ a' : Word, a' ≠ a → lookup a' t = lookup a' s) ∧
        ∀ (k' : Kind) (h' : Handle) (es' : List Event),
          step { t with pending := .insert a k' h' :: es' } = .next { t with pending := es', result := .insert false })

/-- R215 I3 and R220: entries keep their position and content; only RESET takes any away. Every other step leaves the
old table as the first part of the new one. -/
def Obligations.OnlyResetRemovesTableEntries : Prop :=
  ∀ s t : State, step s = .next t → (∀ es, s.pending ≠ .reset :: es) → ∃ new : List Register, t.tbl = s.tbl ++ new

/-! ## POLL: assembler and validator -/

/-- R131: the drain moves the first `min(|rxq|, 255 - len)` bytes to the end of the valid bytes, in order, and changes
nothing else; that a read returns what it is asked for is the spec's own decision D4. -/
def Obligations.DrainMovesBytesInOrder : Prop :=
  ∀ s : State,
    bufBytes (drain s) = bufBytes s ++ s.rxq.take (min s.rxq.length (255 - s.len)) ∧
    (drain s).rxq = s.rxq.drop (min s.rxq.length (255 - s.len)) ∧
    (drain s).len = s.len + min s.rxq.length (255 - s.len) ∧
    (∀ j, j < s.len ∨ (drain s).len ≤ j → (drain s).buf.read j = s.buf.read j) ∧
    drain s = { s with buf := (drain s).buf, rxq := (drain s).rxq, len := (drain s).len }

/-- R130, R162: when the drained buffer decodes to an instruction and, for a request, the address is the engine's, the
step is exec of that instruction on the drained state. -/
def Obligations.StepRunsTheDecodedInstruction : Prop :=
  ∀ (s s0 : State) (i : Instr), PollNext s s0 → decode (bufBytes (drain s0)) = .ok i →
    (isRequest i = true → instrAddr i = s0.slaveAddr) → step s = exec i (drain s0)

/-- R132: with fewer than two bytes POLL reports 'no frame yet' and keeps what the drain left. -/
def Obligations.TooShortBufferWaits : Prop :=
  ∀ s s0 : State, PollNext s s0 → (drain s0).len < 2 →
    step s = .next { drain s0 with result := .poll .noFrame }

/-- R135 (with the test of R133 and R136): a recognized code and another length than the predicted one, smaller or
larger: POLL reports 'no frame yet', sends nothing, flushes nothing. -/
def Obligations.IncompleteFrameWaits : Prop :=
  ∀ s s0 : State, PollNext s s0 → Incomplete (drain s0) →
    step s = .next { drain s0 with result := .poll .noFrame }

/-- R151, R234: a complete frame for another address is dropped: `len` is 0, no reply. That a drop does not flush is the
spec's own decision D7 (log 23). -/
def Obligations.ForeignAddressIsDropped : Prop :=
  ∀ s s0 : State, PollNext s s0 → Complete (drain s0) → bufByte (drain s0) 0 ≠ s0.slaveAddr →
    step s = .next { drain s0 with len := 0, result := .poll .dropped }

/-- R153, R235: a complete frame for this address with a wrong checksum is dropped. That a drop does not flush is the
spec's own decision D7 (log 23). -/
def Obligations.WrongChecksumIsDropped : Prop :=
  ∀ s s0 : State, PollNext s s0 → Complete (drain s0) → bufByte (drain s0) 0 = s0.slaveAddr →
    crcOk (bufBytes (drain s0)) = false → step s = .next { drain s0 with len := 0, result := .poll .dropped }

/-- R134, R231, R239: two buffered bytes whose second is an unrecognized code are answered at once, whatever the address,
the checksum and the length. The reply's address byte is `slave_addr` and the flush follows the reply by the spec's own
decisions D6 and D21 (log 21). -/
def Obligations.UnrecognizedCodeIsAnswered : Prop :=
  ∀ s s0 : State, PollNext s s0 → 2 ≤ (drain s0).len → ¬ FixedCode (bufByte (drain s0) 1) →
    ¬ MultipleCode (bufByte (drain s0) 1) →
      step s = .next { drain s0 with
        txlog := s0.txlog ++ [appendCrc [s0.slaveAddr, bufByte (drain s0) 1 ||| 0x80#8, 0x01#8]], rxq := [], len := 0,
        result := .poll .exception }

/-- R139 (with R131, R135): a request that arrives in two chunks, a POLL after each, runs like one that arrived whole.
The chunks are not empty at the end: `q` is what is missing. -/
def Obligations.FragmentedRequestRuns : Prop :=
  ∀ (s : State) (i : Instr) (p q : List Byte) (es : List Event), wellFormed i = true → isRequest i = true →
    instrAddr i = s.slaveAddr → encode i = p ++ q → q ≠ [] → s.len = 0 → s.rxq = p →
    s.pending = .poll :: .arrive q :: .poll :: es →
      ∃ s1 s2 s3 : State, step s = .next s1 ∧ s1.result = .poll .noFrame ∧ s1.txlog = s.txlog ∧ s1.bits = s.bits ∧
        s1.words = s.words ∧ step s1 = .next s2 ∧ step s2 = exec i s3 ∧ bufBytes s3 = encode i ∧
        s3 = { s with buf := s3.buf, len := (encode i).length, rxq := [], pending := es, result := s3.result }

/-! ## The read handlers -/

/-- R164: READ_COILS over N coils. The byte-count byte of the reply is the spec's own decision D8 (log 18), the status
name D13. -/
def Obligations.ReadCoilsReplies : Prop :=
  ∀ (addr : Byte) (start qty : Word) (s : State) (hs : Nat → Handle), ResolvesTo s .coil start qty.toNat hs →
    (qty.toNat + 7) / 8 + 5 ≤ 255 →
      exec (.readCoils addr start qty) s = .next { s with
        txlog := s.txlog ++ [appendCrc ([addr, 0x01#8, BitVec.ofNat 8 ((qty.toNat + 7) / 8)] ++
          packBits ((List.range qty.toNat).map fun i => readBit s (hs i)))],
        len := 0, result := .poll .replied }

/-- R165: READ_DISCRETE_INPUTS over N discrete inputs (D8, log 18; D13). -/
def Obligations.ReadDiscreteInputsReplies : Prop :=
  ∀ (addr : Byte) (start qty : Word) (s : State) (hs : Nat → Handle), ResolvesTo s .discreteInput start qty.toNat hs →
    (qty.toNat + 7) / 8 + 5 ≤ 255 →
      exec (.readDiscreteInputs addr start qty) s = .next { s with
        txlog := s.txlog ++ [appendCrc ([addr, 0x02#8, BitVec.ofNat 8 ((qty.toNat + 7) / 8)] ++
          packBits ((List.range qty.toNat).map fun i => readBit s (hs i)))],
        len := 0, result := .poll .replied }

/-- R166: READ_HOLDING_REGISTERS over N holding registers (D8, log 18; D13). -/
def Obligations.ReadHoldingRegistersReplies : Prop :=
  ∀ (addr : Byte) (start qty : Word) (s : State) (hs : Nat → Handle),
    ResolvesTo s .holdingRegister start qty.toNat hs → 2 * qty.toNat + 5 ≤ 255 →
      exec (.readHoldingRegisters addr start qty) s = .next { s with
        txlog := s.txlog ++ [appendCrc ([addr, 0x03#8, BitVec.ofNat 8 (2 * qty.toNat)] ++
          (List.range qty.toNat).flatMap fun i => [hi8 (readWord s (hs i)), lo8 (readWord s (hs i))])],
        len := 0, result := .poll .replied }

/-- R167: READ_INPUT_REGISTERS over N input registers (D8, log 18; D13). -/
def Obligations.ReadInputRegistersReplies : Prop :=
  ∀ (addr : Byte) (start qty : Word) (s : State) (hs : Nat → Handle),
    ResolvesTo s .inputRegister start qty.toNat hs → 2 * qty.toNat + 5 ≤ 255 →
      exec (.readInputRegisters addr start qty) s = .next { s with
        txlog := s.txlog ++ [appendCrc ([addr, 0x04#8, BitVec.ofNat 8 (2 * qty.toNat)] ++
          (List.range qty.toNat).flatMap fun i => [hi8 (readWord s (hs i)), lo8 (readWord s (hs i))])],
        len := 0, result := .poll .replied }

/-- R160, R232, R241 for the read codes: the first register that is absent or of another kind ends the request with one
IllegalDataAddress reply and nothing else. The address byte is `slave_addr` (D6, log 21), no flush (D7, log 23). -/
def Obligations.ReadOfMissingRegisterRaises : Prop :=
  ∀ (addr : Byte) (start qty : Word) (s : State) (m : Nat), m < qty.toNat →
    (FailsFirstAt s .coil start m → exec (.readCoils addr start qty) s = .next { s with
      txlog := s.txlog ++ [appendCrc [s.slaveAddr, 0x81#8, 0x02#8]], len := 0, result := .poll .exception }) ∧
    (FailsFirstAt s .discreteInput start m → exec (.readDiscreteInputs addr start qty) s = .next { s with
      txlog := s.txlog ++ [appendCrc [s.slaveAddr, 0x82#8, 0x02#8]], len := 0, result := .poll .exception }) ∧
    (FailsFirstAt s .holdingRegister start m → exec (.readHoldingRegisters addr start qty) s = .next { s with
      txlog := s.txlog ++ [appendCrc [s.slaveAddr, 0x83#8, 0x02#8]], len := 0, result := .poll .exception }) ∧
    (FailsFirstAt s .inputRegister start m → exec (.readInputRegisters addr start qty) s = .next { s with
      txlog := s.txlog ++ [appendCrc [s.slaveAddr, 0x84#8, 0x02#8]], len := 0, result := .poll .exception })

/-- R169 (c), R204: a read all of whose registers resolve and whose reply would be longer than 255 bytes has no meaning;
the model refuses the run (93 U3, log 14). -/
def Obligations.OverlongReadReplyIsRefused : Prop :=
  ∀ (addr : Byte) (start qty : Word) (s : State) (hs : Nat → Handle),
    (255 < (qty.toNat + 7) / 8 + 5 →
      (ResolvesTo s .coil start qty.toNat hs →
        exec (.readCoils addr start qty) s = .refused (.replyTooLong ((qty.toNat + 7) / 8 + 5))) ∧
      (ResolvesTo s .discreteInput start qty.toNat hs →
        exec (.readDiscreteInputs addr start qty) s = .refused (.replyTooLong ((qty.toNat + 7) / 8 + 5)))) ∧
    (255 < 2 * qty.toNat + 5 →
      (ResolvesTo s .holdingRegister start qty.toNat hs →
        exec (.readHoldingRegisters addr start qty) s = .refused (.replyTooLong (2 * qty.toNat + 5))) ∧
      (ResolvesTo s .inputRegister start qty.toNat hs →
        exec (.readInputRegisters addr start qty) s = .refused (.replyTooLong (2 * qty.toNat + 5))))

/-- R61: a read request changes no cell, and the same request against the same cells and table gives the same reply, in
an engine with the same slave address. -/
def Obligations.ReadsAreRepeatable : Prop :=
  ∀ (addr : Byte) (start qty : Word) (i : Instr) (s t : State),
    i ∈ [.readCoils addr start qty, .readDiscreteInputs addr start qty, .readHoldingRegisters addr start qty,
      .readInputRegisters addr start qty] →
    exec i s = .next t →
      t.bits = s.bits ∧ t.words = s.words ∧
      ∃ f : List Byte, t.txlog = s.txlog ++ [f] ∧
        ∀ u : State, u.tbl = s.tbl → u.bits = s.bits → u.words = s.words → u.slaveAddr = s.slaveAddr →
          ∃ v : State, exec i u = .next v ∧ v.txlog = u.txlog ++ [f] ∧ v.result = t.result

/-! ## The write handlers -/

/-- R180: WRITE_SINGLE_COIL on a coil. That every value but 0x0000 writes true is the spec's own decision D9 (log 20).
The last clause is the frame: nothing else changes. -/
def Obligations.WriteSingleCoilWritesAndEchoes : Prop :=
  ∀ (addr : Byte) (start value : Word) (s : State) (h : Handle), resolve start.toNat .coil s = some h →
    ∃ t : State, exec (.writeSingleCoil addr start value) s = .next t ∧
      readBit t h = decide (value ≠ 0x0000#16) ∧ (∀ h', h' ≠ h → readBit t h' = readBit s h') ∧
      t = { s with bits := t.bits, len := 0, result := .poll .replied,
                   txlog := s.txlog ++ [encode (.writeSingleCoil addr start value)] }

/-- R181: WRITE_SINGLE_REGISTER on a holding register. The last clause is the frame: nothing else changes. -/
def Obligations.WriteSingleRegisterWritesAndEchoes : Prop :=
  ∀ (addr : Byte) (start value : Word) (s : State) (h : Handle), resolve start.toNat .holdingRegister s = some h →
    ∃ t : State, exec (.writeSingleRegister addr start value) s = .next t ∧
      readWord t h = value ∧ (∀ h', h' ≠ h → readWord t h' = readWord s h') ∧
      t = { s with words := t.words, len := 0, result := .poll .replied,
                   txlog := s.txlog ++ [encode (.writeSingleRegister addr start value)] }

/-- R180, R181, R232, R241 for the single writes: an address that is absent or of another kind, the read-only kinds among
them, gives one IllegalDataAddress reply and no cell is written (D6, log 21; D7, log 23). -/
def Obligations.SingleWriteToMissingRegisterRaises : Prop :=
  ∀ (addr : Byte) (start value : Word) (s : State),
    (resolve start.toNat .coil s = none → exec (.writeSingleCoil addr start value) s = .next { s with
      txlog := s.txlog ++ [appendCrc [s.slaveAddr, 0x85#8, 0x02#8]], len := 0, result := .poll .exception }) ∧
    (resolve start.toNat .holdingRegister s = none → exec (.writeSingleRegister addr start value) s = .next { s with
      txlog := s.txlog ++ [appendCrc [s.slaveAddr, 0x86#8, 0x02#8]], len := 0, result := .poll .exception })

/-- R182: WRITE_MULTIPLE_COILS over N coils, each data byte within the buffer. Coil `i` takes bit `i mod 8` of frame byte
`7 + i div 8`, the checksum bytes included (R185); from the end of the frame on the bit is a draw and nothing is said of
it. Where registers share a cell the larger index wins (R67, D18). The other cells and all else are unchanged; without a
draw the draw counter (log 10) is unchanged too. -/
def Obligations.WriteMultipleCoilsWritesEachCoil : Prop :=
  ∀ (addr : Byte) (start qty : Word) (bc : Byte) (data : List Byte) (s : State) (hs : Nat → Handle),
    ResolvesTo s .coil start qty.toNat hs → (∀ i, i < qty.toNat → 7 + i / 8 ≤ 254) →
      ∃ t : State, exec (.writeMultipleCoils addr start qty bc data) s = .next t ∧
        (∀ i, i < qty.toNat → (∀ j, i < j → j < qty.toNat → hs j ≠ hs i) →
          7 + i / 8 < (encode (.writeMultipleCoils addr start qty bc data)).length →
            readBit t (hs i) =
              ((encode (.writeMultipleCoils addr start qty bc data)).getD (7 + i / 8) 0#8).getLsbD (i % 8)) ∧
        (∀ h, (∀ i, i < qty.toNat → hs i ≠ h) → readBit t h = readBit s h) ∧
        ((∀ i, i < qty.toNat → 7 + i / 8 < (encode (.writeMultipleCoils addr start qty bc data)).length) →
          t.draws = s.draws) ∧
        t = { s with bits := t.bits, draws := t.draws, len := 0, result := .poll .replied,
                     txlog := s.txlog ++ [appendCrc [addr, 0x0F#8, hi8 start, lo8 start, hi8 qty, lo8 qty]] }

/-- R183: WRITE_MULTIPLE_REGISTERS over N holding registers, each data byte within the buffer. Register `i` takes the
big-endian word at frame bytes `7 + 2*i` and `8 + 2*i`, the checksum bytes included (R185); from the end of the frame on a
byte is a draw and nothing is said of it. Where registers share a cell the larger index wins (R67, D18). -/
def Obligations.WriteMultipleRegistersWritesEachRegister : Prop :=
  ∀ (addr : Byte) (start qty : Word) (bc : Byte) (data : List Byte) (s : State) (hs : Nat → Handle),
    ResolvesTo s .holdingRegister start qty.toNat hs → (∀ i, i < qty.toNat → 8 + 2 * i ≤ 254) →
      ∃ t : State, exec (.writeMultipleRegisters addr start qty bc data) s = .next t ∧
        (∀ i, i < qty.toNat → (∀ j, i < j → j < qty.toNat → hs j ≠ hs i) →
          8 + 2 * i < (encode (.writeMultipleRegisters addr start qty bc data)).length →
            readWord t (hs i) = be16 ((encode (.writeMultipleRegisters addr start qty bc data)).getD (7 + 2 * i) 0#8)
              ((encode (.writeMultipleRegisters addr start qty bc data)).getD (8 + 2 * i) 0#8)) ∧
        (∀ h, (∀ i, i < qty.toNat → hs i ≠ h) → readWord t h = readWord s h) ∧
        ((∀ i, i < qty.toNat → 8 + 2 * i < (encode (.writeMultipleRegisters addr start qty bc data)).length) →
          t.draws = s.draws) ∧
        t = { s with words := t.words, draws := t.draws, len := 0, result := .poll .replied,
                     txlog := s.txlog ++ [appendCrc [addr, 0x10#8, hi8 start, lo8 start, hi8 qty, lo8 qty]] }

/-- R184 for WRITE_MULTIPLE_COILS: when register `m` is the first that does not resolve, the coils before it hold the
request's values, no other cell changes, and the master receives the exception reply only (D6, log 21; D7, log 23). -/
def Obligations.FailedCoilWriteIsNotRolledBack : Prop :=
  ∀ (addr : Byte) (start qty : Word) (bc : Byte) (data : List Byte) (s : State) (hs : Nat → Handle) (m : Nat),
    m < qty.toNat → ResolvesTo s .coil start m hs → resolve (start.toNat + m) .coil s = none →
    (∀ i, i < m → 7 + i / 8 ≤ 254) →
      ∃ t : State, exec (.writeMultipleCoils addr start qty bc data) s = .next t ∧
        (∀ i, i < m → (∀ j, i < j → j < m → hs j ≠ hs i) →
          7 + i / 8 < (encode (.writeMultipleCoils addr start qty bc data)).length →
            readBit t (hs i) =
              ((encode (.writeMultipleCoils addr start qty bc data)).getD (7 + i / 8) 0#8).getLsbD (i % 8)) ∧
        (∀ h, (∀ i, i < m → hs i ≠ h) → readBit t h = readBit s h) ∧
        t = { s with bits := t.bits, draws := t.draws, len := 0, result := .poll .exception,
                     txlog := s.txlog ++ [appendCrc [s.slaveAddr, 0x8F#8, 0x02#8]] }

/-- R184 for WRITE_MULTIPLE_REGISTERS. -/
def Obligations.FailedRegisterWriteIsNotRolledBack : Prop :=
  ∀ (addr : Byte) (start qty : Word) (bc : Byte) (data : List Byte) (s : State) (hs : Nat → Handle) (m : Nat),
    m < qty.toNat → ResolvesTo s .holdingRegister start m hs →
    resolve (start.toNat + m) .holdingRegister s = none → (∀ i, i < m → 8 + 2 * i ≤ 254) →
      ∃ t : State, exec (.writeMultipleRegisters addr start qty bc data) s = .next t ∧
        (∀ i, i < m → (∀ j, i < j → j < m → hs j ≠ hs i) →
          8 + 2 * i < (encode (.writeMultipleRegisters addr start qty bc data)).length →
            readWord t (hs i) = be16 ((encode (.writeMultipleRegisters addr start qty bc data)).getD (7 + 2 * i) 0#8)
              ((encode (.writeMultipleRegisters addr start qty bc data)).getD (8 + 2 * i) 0#8)) ∧
        (∀ h, (∀ i, i < m → hs i ≠ h) → readWord t h = readWord s h) ∧
        t = { s with words := t.words, draws := t.draws, len := 0, result := .poll .exception,
                     txlog := s.txlog ++ [appendCrc [s.slaveAddr, 0x90#8, 0x02#8]] }

/-- R185: a handler that reaches a buffer index above 254 has no meaning; the model refuses the run (93 U4, log 14). The
first such register is 1984 for coils and 124 for holding registers. -/
def Obligations.DataBeyondBufferIsRefused : Prop :=
  ∀ (addr : Byte) (start qty : Word) (bc : Byte) (data : List Byte) (s : State) (hs : Nat → Handle),
    (1984 < qty.toNat → ResolvesTo s .coil start 1985 hs →
      exec (.writeMultipleCoils addr start qty bc data) s = .refused (.dataBeyondBuffer 255)) ∧
    (124 < qty.toNat → ResolvesTo s .holdingRegister start 125 hs →
      exec (.writeMultipleRegisters addr start qty bc data) s = .refused (.dataBeyondBuffer 255))

/-- R97 with R182: WRITE_COILS of N booleans is well-formed and writes them (D16 is the spec's own notation). -/
def Obligations.WriteCoilsWritesTheGivenBits : Prop :=
  ∀ (addr : Byte) (start : Word) (bs : List Bool) (s : State) (hs : Nat → Handle), bs.length ≤ 1968 →
    ResolvesTo s .coil start bs.length hs →
      wellFormed (writeCoils addr start bs) = true ∧
      ∃ t : State, exec (writeCoils addr start bs) s = .next t ∧
        ∀ i, i < bs.length → (∀ j, i < j → j < bs.length → hs j ≠ hs i) → readBit t (hs i) = bs.getD i false

/-- R97 with R183: WRITE_REGISTERS of N words is well-formed and writes them (D16 is the spec's own notation). -/
def Obligations.WriteRegistersWritesTheGivenWords : Prop :=
  ∀ (addr : Byte) (start : Word) (ws : List Word) (s : State) (hs : Nat → Handle), ws.length ≤ 123 →
    ResolvesTo s .holdingRegister start ws.length hs →
      wellFormed (writeRegisters addr start ws) = true ∧
      ∃ t : State, exec (writeRegisters addr start ws) s = .next t ∧
        ∀ i, i < ws.length → (∀ j, i < j → j < ws.length → hs j ≠ hs i) → readWord t (hs i) = ws.getD i 0#16

/-! ## Unrecognized codes -/

/-- R134, R206: ILLEGAL_FUNCTION in every state and for every code byte: the IllegalFunction reply, the flush, an empty
buffer, and nothing else. The address byte is `slave_addr` (D6, log 21). -/
def Obligations.IllegalFunctionRepliesAndFlushes : Prop :=
  ∀ (addr fc : Byte) (s : State), exec (.illegalFunction addr fc) s = .next { s with
    txlog := s.txlog ++ [appendCrc [s.slaveAddr, fc ||| 0x80#8, 0x01#8]], rxq := [], len := 0,
    result := .poll .exception }

/-! ## Frames -/

/-- What no handler changes (R21, R24, R219, R61): the bytes of `buf`, `slave_addr`, the table and its capacity, what
host and environment do next; the log only grows, by one frame; `len` is 0 after (R168). -/
def Obligations.EveryHandlerFrame : Prop :=
  ∀ (i : Instr) (s t : State), exec i s = .next t →
    (∀ j, t.buf.read j = s.buf.read j) ∧ t.slaveAddr = s.slaveAddr ∧ t.tbl = s.tbl ∧ t.tblCap = s.tblCap ∧
    t.pending = s.pending ∧ t.len = 0 ∧ ∃ f : List Byte, t.txlog = s.txlog ++ [f]

/-- The frame of the read codes (R61, R164 to R167, R208): only the log, `len` and the status change. -/
def Obligations.ReadHandlerFrame : Prop :=
  ∀ (addr : Byte) (start qty : Word) (i : Instr) (s t : State),
    i ∈ [.readCoils addr start qty, .readDiscreteInputs addr start qty, .readHoldingRegisters addr start qty,
      .readInputRegisters addr start qty] →
    exec i s = .next t → t = { s with txlog := t.txlog, len := 0, result := t.result }

/-- The frame of the coil writes (R180, R182, R184, R208): no word cell changes, and a boolean cell changes only when it
is the cell of a Coil that the request addresses. -/
def Obligations.CoilWriteFrame : Prop :=
  ∀ (addr : Byte) (start qty : Word) (bc : Byte) (data : List Byte) (s t : State),
    (exec (.writeSingleCoil addr start qty) s = .next t →
      (∀ h, resolve start.toNat .coil s ≠ some h → readBit t h = readBit s h) ∧
      t = { s with bits := t.bits, txlog := t.txlog, len := 0, result := t.result }) ∧
    (exec (.writeMultipleCoils addr start qty bc data) s = .next t →
      (∀ h, (∀ i, i < qty.toNat → resolve (start.toNat + i) .coil s ≠ some h) → readBit t h = readBit s h) ∧
      t = { s with bits := t.bits, draws := t.draws, txlog := t.txlog, len := 0, result := t.result })

/-- The frame of the register writes (R181, R183, R184, R208): no boolean cell changes, and a word cell changes only when
it is the cell of a HoldingRegister that the request addresses. -/
def Obligations.RegisterWriteFrame : Prop :=
  ∀ (addr : Byte) (start qty : Word) (bc : Byte) (data : List Byte) (s t : State),
    (exec (.writeSingleRegister addr start qty) s = .next t →
      (∀ h, resolve start.toNat .holdingRegister s ≠ some h → readWord t h = readWord s h) ∧
      t = { s with words := t.words, txlog := t.txlog, len := 0, result := t.result }) ∧
    (exec (.writeMultipleRegisters addr start qty bc data) s = .next t →
      (∀ h, (∀ i, i < qty.toNat → resolve (start.toNat + i) .holdingRegister s ≠ some h) →
        readWord t h = readWord s h) ∧
      t = { s with words := t.words, draws := t.draws, txlog := t.txlog, len := 0, result := t.result })

/-! ## Host and environment -/

/-- R36: what reset leaves, as far as the spec states it. The spec leaves the bytes of `buf` unspecified; that an
unspecified byte is one the buffer does not list is the model's choice (log 9). -/
def Obligations.ResetStateIsEmpty : Prop :=
  State.reset.len = 0 ∧ State.reset.tbl = [] ∧ State.reset.result = .none ∧
    (∀ i, State.reset.buf.read i = none) ∧ Memory.wf State.reset.buf = true

/-- R260: RESET at any moment the engine is idle empties buffer and table, and touches neither the cells nor `rxq` nor
`txlog` nor the capacity (the repeated reset is the spec's own decision D17). `slave_addr` has no defined value until INIT,
so nothing is said of it (R261; log 5). The spec leaves the bytes of `buf` unspecified after reset (R36, R260); that they
stay listed, above `len` and never read, is the model's choice (log 9). -/
def Obligations.ResetEmptiesBufferAndTable : Prop :=
  ∀ (s : State) (es : List Event), s.pending = .reset :: es →
    ∃ t : State, step s = .next t ∧
      t = { s with len := 0, tbl := [], pending := es, result := .none, slaveAddr := t.slaveAddr, draws := t.draws }

/-- R261, R24: INIT binds the slave address, whatever the byte, and changes nothing else. -/
def Obligations.InitBindsSlaveAddress : Prop :=
  ∀ (s : State) (addr : Byte) (es : List Event), s.pending = .init addr :: es →
    step s = .next { s with slaveAddr := addr, pending := es, result := .none }

/-- R34, R38, R68: between polls the host changes one cell and no other, of either type, and bytes that arrive are
appended to `rxq` in order. -/
def Obligations.HostAndWireStepBetweenPolls : Prop :=
  ∀ (s : State) (es : List Event) (h : Handle) (b : Bool) (w : Word) (bytes : List Byte),
    (s.pending = .setBit h b :: es → ∃ t : State, step s = .next t ∧ readBit t h = b ∧
      (∀ h', h' ≠ h → readBit t h' = readBit s h') ∧
      t = { s with bits := t.bits, pending := es, result := .none }) ∧
    (s.pending = .setWord h w :: es → ∃ t : State, step s = .next t ∧ readWord t h = w ∧
      (∀ h', h' ≠ h → readWord t h' = readWord s h') ∧
      t = { s with words := t.words, pending := es, result := .none }) ∧
    (s.pending = .arrive bytes :: es →
      step s = .next { s with rxq := s.rxq ++ bytes, pending := es, result := .none })

/-! ## Whole-machine rules -/

/-- The invariant holds right after reset. -/
def Obligations.ResetMeetsTheInvariant : Prop := Inv State.reset

/-- Every step keeps the invariant: the buffer within its bounds and in canonical form (R21, R22), the table within its
capacity and its addresses distinct (R215 I1, I2), the cells in canonical form (log 8). -/
def Obligations.EveryStepKeepsTheInvariant : Prop :=
  ∀ s t : State, Inv s → step s = .next t → Inv t

/-- R9, R243: in the envelope every step answers a next state: every POLL returns, on every input. -/
def Obligations.EnvelopeAlwaysAnswers : Prop :=
  ∀ s : State, Inv s → Envelope s → ∃ t : State, step s = .next t

/-- R80, R204, R138: a step sends at most one frame, only a POLL sends one, and what it sends has 5 to 255 bytes and ends
in its own checksum. -/
def Obligations.EveryStepSendsAtMostOneFrame : Prop :=
  ∀ s t : State, step s = .next t →
    t.txlog = s.txlog ∨ (∃ s0, PollNext s s0) ∧ ∃ f : List Byte, FrameOk f ∧ t.txlog = s.txlog ++ [f]

/-- R237: every way a POLL can end: nothing sent and the buffer kept, nothing sent and the buffer emptied, an exception
reply, a normal reply. Cells change only with a reply; `rxq` beyond the drain only on the IllegalFunction path. The names
of the statuses other than NO_FRAME are the spec's own (D13). -/
def Obligations.PollEndsInOneOfTheSummarysWays : Prop :=
  ∀ s s0 t : State, PollNext s s0 → step s = .next t →
    (t = { drain s0 with result := .poll .noFrame } ∧ ((drain s0).len < 2 ∨ Incomplete (drain s0))) ∨
    (t = { drain s0 with len := 0, result := .poll .dropped } ∧ Complete (drain s0)) ∨
    (t.result = .poll .exception ∧ t.len = 0 ∧
      ((t.txlog = s0.txlog ++ [appendCrc [s0.slaveAddr, bufByte (drain s0) 1 ||| 0x80#8, 0x01#8]] ∧ t.rxq = [] ∧
          t.bits = s0.bits ∧ t.words = s0.words ∧ 2 ≤ (drain s0).len ∧ ¬ FixedCode (bufByte (drain s0) 1) ∧
          ¬ MultipleCode (bufByte (drain s0) 1)) ∨
        (Complete (drain s0) ∧ t.rxq = (drain s0).rxq ∧
          t.txlog = s0.txlog ++ [appendCrc [s0.slaveAddr, bufByte (drain s0) 1 ||| 0x80#8, 0x02#8]]))) ∨
    (t.result = .poll .replied ∧ t.len = 0 ∧ Complete (drain s0) ∧ bufByte (drain s0) 0 = s0.slaveAddr ∧
      t.rxq = (drain s0).rxq ∧
      ∃ f : List Byte, t.txlog = s0.txlog ++ [f] ∧ f.take 2 = [s0.slaveAddr, bufByte (drain s0) 1])

/-- R233, R187: no step sends a frame whose second byte has bit 7 set and whose third is 3, the reply IllegalDataValue
would be. -/
def Obligations.IllegalDataValueIsNeverSent : Prop :=
  ∀ s t : State, step s = .next t → ∀ f ∈ t.txlog, f ∉ s.txlog →
    ¬ ((f.getD 1 0#8).getLsbD 7 = true ∧ f.getD 2 0#8 = 0x03#8)

/-- R65, R245: a POLL changes a boolean cell only through a Coil of the table and a word cell only through a
HoldingRegister; `slave_addr`, the table and its capacity it never changes (R24, R245). -/
def Obligations.MasterWritesOnlyCoilsAndHoldingRegisters : Prop :=
  ∀ s s0 t : State, PollNext s s0 → step s = .next t →
    t.slaveAddr = s.slaveAddr ∧ t.tbl = s.tbl ∧ t.tblCap = s.tblCap ∧
    (∀ h, readBit t h ≠ readBit s h → ∃ e ∈ s.tbl, e.kind = .coil ∧ e.ref = h) ∧
    (∀ h, readWord t h ≠ readWord s h → ∃ e ∈ s.tbl, e.kind = .holdingRegister ∧ e.ref = h)

/-- R268, which the spec derives: from a stalled state every step but RESET leads to a stalled state that has sent
nothing, and a POLL reports NO_FRAME and touches no cell. -/
def Obligations.OnlyResetLeavesAStall : Prop :=
  ∀ s : State, Inv s → Stalled s → (∀ es, s.pending ≠ .reset :: es) →
    ∃ t : State, step s = .next t ∧ Stalled t ∧ s.len ≤ t.len ∧ t.txlog = s.txlog ∧
      ((∃ s0, PollNext s s0) → t.result = .poll .noFrame ∧ t.bits = s.bits ∧ t.words = s.words)

/-- R266, which the spec derives: a request followed in `rxq` by any further byte is not recognised, and the engine is
stalled. -/
def Obligations.OvershootStallsTheEngine : Prop :=
  ∀ (s s0 : State) (i : Instr) (extra : List Byte), PollNext s s0 → wellFormed i = true → isRequest i = true →
    (encode i).length < 255 → extra ≠ [] → s0.len = 0 → s0.rxq = encode i ++ extra →
      ∃ t : State, step s = .next t ∧ t.result = .poll .noFrame ∧ t.txlog = s.txlog ∧ Stalled t

/-- R269, which the spec derives: seven bytes of a multiple write whose byte count is 247 or more stall the engine,
whatever the address. -/
def Obligations.LargeByteCountStallsTheEngine : Prop :=
  ∀ (s s0 : State) (x fc b2 b3 b4 b5 bc : Byte), PollNext s s0 → MultipleCode fc → 247 ≤ bc.toNat → s0.len = 0 →
    s0.rxq = [x, fc, b2, b3, b4, b5, bc] →
      ∃ t : State, step s = .next t ∧ t.result = .poll .noFrame ∧ t.len = 7 ∧ Stalled t

end
end

