-- ==== Sys2Proof/Laws/Checksum.lean ====
section
/-! SUPPORT. The laws of the checksum's generator and checker (spec 40_checksum_codec.md R112, R113). -/

namespace Sys2Proof.Machine

@[simp] theorem crcBytes_length (s : List Byte) : (crcBytes s).length = 2 := rfl

@[simp] theorem appendCrc_length (s : List Byte) : (appendCrc s).length = s.length + 2 := by simp [appendCrc]

@[simp] theorem crcOk_appendCrc (s : List Byte) : crcOk (appendCrc s) = true := by
  simp [crcOk, appendCrc]

/-- The checker accepts exactly what the generator makes (R112, R113). -/
theorem crcOk_iff (f : List Byte) : crcOk f = true ↔ f = appendCrc (f.take (f.length - 2)) := by
  constructor
  · intro h
    rw [crcOk, beq_iff_eq] at h
    rw [appendCrc, ← h, List.take_append_drop]
  · intro h; rw [h]; exact crcOk_appendCrc _

/-- A byte of a frame before its checksum. -/
theorem appendCrc_getElem? (s : List Byte) (j : Nat) (h : j < s.length) : (appendCrc s)[j]? = s[j]? := by
  rw [appendCrc, List.getElem?_append_left h]

end Sys2Proof.Machine
end

