-- ==== Sys2Proof/Laws/Codec.lean ====
section
/-! SUPPORT. The laws of the wire codec (spec 40_checksum_codec.md R114 to R117). -/

namespace Sys2Proof.Machine

@[simp] theorem hi8_be16 (h l : Byte) : hi8 (be16 h l) = h := by
  apply BitVec.eq_of_getLsbD_eq
  intro k hk
  simp only [hi8, be16, BitVec.getLsbD_extractLsb', BitVec.getLsbD_append]
  simp [hk]

@[simp] theorem lo8_be16 (h l : Byte) : lo8 (be16 h l) = l := by
  apply BitVec.eq_of_getLsbD_eq
  intro k hk
  simp only [lo8, be16, BitVec.getLsbD_extractLsb', BitVec.getLsbD_append]
  simp [hk]

@[simp] theorem be16_hi8_lo8 (w : Word) : be16 (hi8 w) (lo8 w) = w := by
  apply BitVec.eq_of_getLsbD_eq
  intro k hk
  simp only [hi8, lo8, be16, BitVec.getLsbD_extractLsb', BitVec.getLsbD_append]
  by_cases h : k < 8
  · simp [h]
  · simp [h, show k - 8 < 8 by omega, show 8 + (k - 8) = k by omega]

@[simp] theorem enc16_length (w : Word) : (enc16 w).length = 2 := rfl

theorem flatMap_enc16_length (ws : List Word) : (ws.flatMap enc16).length = 2 * ws.length := by
  induction ws with
  | nil => rfl
  | cons w ws ih => simp only [List.flatMap_cons, List.length_append, enc16_length, ih, List.length_cons]; omega

@[simp] theorem packBits_length (bs : List Bool) : (packBits bs).length = ceil8 bs.length := by simp [packBits]

theorem byteOfBits_getLsbD (g : Nat → Bool) (k : Nat) (hk : k < 8) : (byteOfBits g).getLsbD k = g k := by
  have : byteOfBits g = (((((((0#8 ||| (if g 0 then BitVec.twoPow 8 0 else 0#8)) ||| (if g 1 then BitVec.twoPow 8 1 else 0#8))
    ||| (if g 2 then BitVec.twoPow 8 2 else 0#8)) ||| (if g 3 then BitVec.twoPow 8 3 else 0#8))
    ||| (if g 4 then BitVec.twoPow 8 4 else 0#8)) ||| (if g 5 then BitVec.twoPow 8 5 else 0#8))
    ||| (if g 6 then BitVec.twoPow 8 6 else 0#8)) ||| (if g 7 then BitVec.twoPow 8 7 else 0#8) := rfl
  have bit : ∀ (b : Bool) (j : Nat), (if b then BitVec.twoPow 8 j else 0#8).getLsbD k = (b && decide (j < 8) && decide (j = k)) := by
    intro b j; cases b <;> simp [BitVec.getLsbD_twoPow]
  rw [this]
  simp only [BitVec.getLsbD_or, bit]
  interval_cases k <;> simp

/-- Bit `k` of byte `j` of packed booleans (R116). -/
theorem packBits_getLsbD (bs : List Bool) (j k : Nat) (hk : k < 8) :
    ((packBits bs).getD j 0#8).getLsbD k = bs.getD (8 * j + k) false := by
  by_cases hj : j < ceil8 bs.length
  · rw [List.getD_eq_getElem _ _ (by simpa using hj)]
    simp [packBits, byteOfBits_getLsbD _ k hk]
  · rw [List.getD_eq_default _ _ (by simpa using hj), List.getD_eq_default _ _ (by unfold ceil8 at hj; omega)]
    simp

theorem recognized_iff (fc : Byte) :
    recognized fc = true ↔ fc ∈ [0x01#8, 0x02#8, 0x03#8, 0x04#8, 0x05#8, 0x06#8] ∨ fc ∈ [0x0F#8, 0x10#8] := by
  revert fc; decide +kernel

theorem isFixed_iff (fc : Byte) : isFixed fc = true ↔ fc ∈ [0x01#8, 0x02#8, 0x03#8, 0x04#8, 0x05#8, 0x06#8] := by
  revert fc; decide +kernel

theorem isMultiple_iff (fc : Byte) : isMultiple fc = true ↔ fc ∈ [0x0F#8, 0x10#8] := by
  revert fc; decide +kernel

/-- No code is both. -/
theorem not_isMultiple_of_isFixed (fc : Byte) (h : isFixed fc = true) : isMultiple fc = false := by
  revert fc; decide +kernel

end Sys2Proof.Machine
end

