-- ==== Sys2Proof/Laws/Decode.lean ====
section
/-! SUPPORT. What the decoder does on each class of byte sequences, and the shape of an encoding. -/

namespace Sys2Proof

open Machine

/-- Two bytes whose second is unrecognized (R134). -/
theorem decode_unrecognized (a fc : Byte) (rest : List Byte) (h : recognized fc = false) :
    decode (a :: fc :: rest) = .ok (.illegalFunction a fc) := by
  simp [decode, h]

/-- A recognized code whose frame has not its predicted length (R135). -/
theorem decode_wrongLength (a fc : Byte) (rest : List Byte) (h : recognized fc = true)
    (hc : frameComplete fc (a :: fc :: rest) = false) : decode (a :: fc :: rest) = .error .wrongLength := by
  simp [decode, h, hc]

/-- A complete frame with a wrong checksum (R153). -/
theorem decode_badChecksum (a fc : Byte) (rest : List Byte) (h : recognized fc = true)
    (hc : frameComplete fc (a :: fc :: rest) = true) (hk : crcOk (a :: fc :: rest) = false) :
    decode (a :: fc :: rest) = .error .badChecksum := by
  simp [decode, h, hc, hk]

/-- A complete frame with its checksum (R154). -/
theorem decode_complete (a fc : Byte) (rest : List Byte) (h : recognized fc = true)
    (hc : frameComplete fc (a :: fc :: rest) = true) (hk : crcOk (a :: fc :: rest) = true) :
    decode (a :: fc :: rest) = decodeFields a fc rest := by
  simp [decode, h, hc, hk]

/-- Everything a successful decode can be. -/
theorem decode_ok_cases {f : List Byte} {i : Instr} (h : decode f = .ok i) :
    ∃ a fc rest, f = a :: fc :: rest ∧
      ((recognized fc = false ∧ i = .illegalFunction a fc) ∨
        (recognized fc = true ∧ frameComplete fc f = true ∧ crcOk f = true ∧ decodeFields a fc rest = .ok i)) := by
  match f with
  | [] => simp [decode] at h
  | [_] => simp [decode] at h
  | a :: fc :: rest =>
    refine ⟨a, fc, rest, rfl, ?_⟩
    cases hr : recognized fc
    · rw [decode_unrecognized _ _ _ hr] at h
      exact .inl ⟨rfl, (Except.ok.inj h).symm⟩
    · cases hc : frameComplete fc (a :: fc :: rest)
      · rw [decode_wrongLength _ _ _ hr hc] at h; cases h
      · cases hk : crcOk (a :: fc :: rest)
        · rw [decode_badChecksum _ _ _ hr hc hk] at h; cases h
        · rw [decode_complete _ _ _ hr hc hk] at h
          exact .inr ⟨rfl, rfl, rfl, h⟩

/-- The completeness test for the 8-byte requests (R133). -/
theorem frameComplete_fixed {fc : Byte} (h : isFixed fc = true) (f : List Byte) :
    frameComplete fc f = true ↔ f.length = 8 := by
  simp [frameComplete, h]

/-- The completeness test for the variable-length requests (R133, R136). -/
theorem frameComplete_multiple {fc : Byte} (h : isFixed fc = false) (f : List Byte) :
    frameComplete fc f = true ↔ 7 ≤ f.length ∧ f.length = (f.getD 6 0#8).toNat + 9 := by
  simp only [frameComplete, h, Bool.false_eq_true, if_false]
  by_cases h6 : 6 < f.length
  · rw [List.getElem?_eq_getElem h6, List.getD_eq_getElem _ _ h6]
    simp; omega
  · rw [List.getElem?_eq_none (by omega), List.getD_eq_default _ _ (by omega)]
    simp; omega

theorem isFixed_eq_false_of_multiple {fc : Byte} (h : isMultiple fc = true) : isFixed fc = false := by
  revert fc; decide +kernel

/-- An 8-byte request (R81). -/
theorem encodeFixed_eq (a fc : Byte) (start qty : Word) :
    encodeFixed a fc start qty = appendCrc [a, fc, hi8 start, lo8 start, hi8 qty, lo8 qty] := rfl

/-- A variable-length request (R82). -/
theorem encodeMultiple_eq (a fc : Byte) (start qty : Word) (bc : Byte) (data : List Byte) :
    encodeMultiple a fc start qty bc data =
      appendCrc ([a, fc, hi8 start, lo8 start, hi8 qty, lo8 qty, bc] ++ data) := by
  simp [encodeMultiple, enc16]

@[simp] theorem encodeFixed_length (a fc : Byte) (start qty : Word) : (encodeFixed a fc start qty).length = 8 := by
  simp [encodeFixed_eq]

@[simp] theorem encodeMultiple_length (a fc : Byte) (start qty : Word) (bc : Byte) (data : List Byte) :
    (encodeMultiple a fc start qty bc data).length = data.length + 9 := by
  simp [encodeMultiple_eq]

/-- What an 8-byte request decodes to (R81, R87). -/
theorem decode_encodeFixed (a fc : Byte) (start qty : Word) (h : isFixed fc = true) :
    decode (encodeFixed a fc start qty) = .ok (decodeFixed a fc start qty) := by
  have hl : (encodeFixed a fc start qty).length = 8 := by simp
  have hk : crcOk (encodeFixed a fc start qty) = true := by rw [encodeFixed_eq]; exact crcOk_appendCrc _
  rw [encodeFixed_eq] at hl hk ⊢
  simp only [appendCrc, List.cons_append, List.nil_append, crcBytes] at hl hk ⊢
  rw [decode_complete _ _ _ (by simp [recognized, h]) ((frameComplete_fixed h _).mpr hl) hk]
  simp [decodeFields, h]

/-- What a variable-length request decodes to (R82, R87). -/
theorem decode_encodeMultiple (a fc : Byte) (start qty : Word) (bc : Byte) (data : List Byte)
    (h : isMultiple fc = true) (hw : data.length = bc.toNat) :
    decode (encodeMultiple a fc start qty bc data) = .ok (decodeMultiple a fc start qty bc data) := by
  have hl : (encodeMultiple a fc start qty bc data).length = data.length + 9 := by simp
  have hk : crcOk (encodeMultiple a fc start qty bc data) = true := by rw [encodeMultiple_eq]; exact crcOk_appendCrc _
  rw [encodeMultiple_eq] at hl hk ⊢
  simp only [appendCrc, List.cons_append, List.nil_append] at hl hk ⊢
  rw [decode_complete _ _ _ (by simp [recognized, h])
    ((frameComplete_multiple (isFixed_eq_false_of_multiple h) _).mpr ⟨by simp, by rw [hl, hw]; simp⟩) hk]
  simp [decodeFields, isFixed_eq_false_of_multiple h, decodeMultiple, ← hw]

/-- The header of a variable-length request, which its reply repeats (R85). -/
theorem encodeMultiple_take6 (a fc : Byte) (start qty : Word) (bc : Byte) (data : List Byte) :
    (encodeMultiple a fc start qty bc data).take 6 = [a, fc, hi8 start, lo8 start, hi8 qty, lo8 qty] := by
  simp [encodeMultiple_eq, appendCrc]

/-- Data byte `j` of a variable-length request (R82). -/
theorem encodeMultiple_data (a fc : Byte) (start qty : Word) (bc : Byte) (data : List Byte) (j : Nat)
    (h : j < data.length) : (encodeMultiple a fc start qty bc data)[7 + j]? = data[j]? := by
  rw [encodeMultiple_eq, appendCrc_getElem? _ _ (by simp; omega)]
  rw [List.getElem?_append_right (by simp)]
  simp

/-- The first two bytes of what was decoded are the instruction's address and function code (R87, R93). -/
theorem decode_instrAddr {f : List Byte} {i : Instr} (h : decode f = .ok i) :
    instrAddr i = f.getD 0 0#8 ∧ instrCode i = f.getD 1 0#8 := by
  obtain ⟨a, fc, rest, rfl, h | ⟨hr, hc, hk, hf⟩⟩ := decode_ok_cases h
  · rw [h.2]; simp [instrAddr, instrCode]
  · simp only [List.getD_cons_zero, List.getD_cons_succ]
    rw [recognized_iff] at hr
    match rest with
    | sh :: sl :: qh :: ql :: rest =>
      simp only [decodeFields] at hf
      split_ifs at hf with hfx
      · cases hf
        rw [isFixed_iff] at hfx
        simp only [List.mem_cons, List.not_mem_nil, or_false] at hfx
        rcases hfx with rfl | rfl | rfl | rfl | rfl | rfl <;> exact ⟨rfl, rfl⟩
      · rw [isFixed_iff] at hfx
        split at hf
        · cases hf
          simp only [List.mem_cons, List.not_mem_nil, or_false] at hfx hr
          rcases hr with h | rfl | rfl
          · exact absurd h hfx
          · exact ⟨rfl, rfl⟩
          · exact ⟨rfl, rfl⟩
        · cases hf
    | [] => cases hf
    | [_] => cases hf
    | [_, _] => cases hf
    | [_, _, _] => cases hf

/-- An 8-byte frame with its checksum, in its fields. -/
theorem eq_of_crcOk_8 {f : List Byte} (h : f.length = 8) (hk : crcOk f = true) :
    ∃ b0 b1 b2 b3 b4 b5, f = appendCrc [b0, b1, b2, b3, b4, b5] := by
  match f, h with
  | [b0, b1, b2, b3, b4, b5, b6, b7], _ => exact ⟨b0, b1, b2, b3, b4, b5, (crcOk_iff _).mp hk⟩

end Sys2Proof
end

