-- ==== Sys2Proof/Laws/State.lean ====
section
/-! SUPPORT. What each update of the state leaves in each field: true by rfl, so that no proof unfolds an update. -/

namespace Sys2Proof.Machine

/-! writeBit -/

@[simp] theorem writeBit_buf (h : Handle) (v : Bool) (s : State) : (writeBit h v s).buf = s.buf := rfl
@[simp] theorem writeBit_len (h : Handle) (v : Bool) (s : State) : (writeBit h v s).len = s.len := rfl
@[simp] theorem writeBit_slaveAddr (h : Handle) (v : Bool) (s : State) : (writeBit h v s).slaveAddr = s.slaveAddr := rfl
@[simp] theorem writeBit_tblCap (h : Handle) (v : Bool) (s : State) : (writeBit h v s).tblCap = s.tblCap := rfl
@[simp] theorem writeBit_tbl (h : Handle) (v : Bool) (s : State) : (writeBit h v s).tbl = s.tbl := rfl
@[simp] theorem writeBit_bits (h : Handle) (v : Bool) (s : State) : (writeBit h v s).bits = cellWrite false s.bits h v := rfl
@[simp] theorem writeBit_words (h : Handle) (v : Bool) (s : State) : (writeBit h v s).words = s.words := rfl
@[simp] theorem writeBit_rxq (h : Handle) (v : Bool) (s : State) : (writeBit h v s).rxq = s.rxq := rfl
@[simp] theorem writeBit_txlog (h : Handle) (v : Bool) (s : State) : (writeBit h v s).txlog = s.txlog := rfl
@[simp] theorem writeBit_pending (h : Handle) (v : Bool) (s : State) : (writeBit h v s).pending = s.pending := rfl
@[simp] theorem writeBit_result (h : Handle) (v : Bool) (s : State) : (writeBit h v s).result = s.result := rfl
@[simp] theorem writeBit_draws (h : Handle) (v : Bool) (s : State) : (writeBit h v s).draws = s.draws := rfl

/-! writeWord -/

@[simp] theorem writeWord_buf (h : Handle) (v : Word) (s : State) : (writeWord h v s).buf = s.buf := rfl
@[simp] theorem writeWord_len (h : Handle) (v : Word) (s : State) : (writeWord h v s).len = s.len := rfl
@[simp] theorem writeWord_slaveAddr (h : Handle) (v : Word) (s : State) : (writeWord h v s).slaveAddr = s.slaveAddr := rfl
@[simp] theorem writeWord_tblCap (h : Handle) (v : Word) (s : State) : (writeWord h v s).tblCap = s.tblCap := rfl
@[simp] theorem writeWord_tbl (h : Handle) (v : Word) (s : State) : (writeWord h v s).tbl = s.tbl := rfl
@[simp] theorem writeWord_bits (h : Handle) (v : Word) (s : State) : (writeWord h v s).bits = s.bits := rfl
@[simp] theorem writeWord_words (h : Handle) (v : Word) (s : State) : (writeWord h v s).words = cellWrite 0x0000#16 s.words h v := rfl
@[simp] theorem writeWord_rxq (h : Handle) (v : Word) (s : State) : (writeWord h v s).rxq = s.rxq := rfl
@[simp] theorem writeWord_txlog (h : Handle) (v : Word) (s : State) : (writeWord h v s).txlog = s.txlog := rfl
@[simp] theorem writeWord_pending (h : Handle) (v : Word) (s : State) : (writeWord h v s).pending = s.pending := rfl
@[simp] theorem writeWord_result (h : Handle) (v : Word) (s : State) : (writeWord h v s).result = s.result := rfl
@[simp] theorem writeWord_draws (h : Handle) (v : Word) (s : State) : (writeWord h v s).draws = s.draws := rfl

/-! txWrite -/

@[simp] theorem txWrite_buf (f : List Byte) (s : State) : (txWrite f s).buf = s.buf := rfl
@[simp] theorem txWrite_len (f : List Byte) (s : State) : (txWrite f s).len = s.len := rfl
@[simp] theorem txWrite_slaveAddr (f : List Byte) (s : State) : (txWrite f s).slaveAddr = s.slaveAddr := rfl
@[simp] theorem txWrite_tblCap (f : List Byte) (s : State) : (txWrite f s).tblCap = s.tblCap := rfl
@[simp] theorem txWrite_tbl (f : List Byte) (s : State) : (txWrite f s).tbl = s.tbl := rfl
@[simp] theorem txWrite_bits (f : List Byte) (s : State) : (txWrite f s).bits = s.bits := rfl
@[simp] theorem txWrite_words (f : List Byte) (s : State) : (txWrite f s).words = s.words := rfl
@[simp] theorem txWrite_rxq (f : List Byte) (s : State) : (txWrite f s).rxq = s.rxq := rfl
@[simp] theorem txWrite_txlog (f : List Byte) (s : State) : (txWrite f s).txlog = s.txlog ++ [f] := rfl
@[simp] theorem txWrite_pending (f : List Byte) (s : State) : (txWrite f s).pending = s.pending := rfl
@[simp] theorem txWrite_result (f : List Byte) (s : State) : (txWrite f s).result = s.result := rfl
@[simp] theorem txWrite_draws (f : List Byte) (s : State) : (txWrite f s).draws = s.draws := rfl

/-! rxFlush -/

@[simp] theorem rxFlush_buf (s : State) : (rxFlush s).buf = s.buf := rfl
@[simp] theorem rxFlush_len (s : State) : (rxFlush s).len = s.len := rfl
@[simp] theorem rxFlush_slaveAddr (s : State) : (rxFlush s).slaveAddr = s.slaveAddr := rfl
@[simp] theorem rxFlush_tblCap (s : State) : (rxFlush s).tblCap = s.tblCap := rfl
@[simp] theorem rxFlush_tbl (s : State) : (rxFlush s).tbl = s.tbl := rfl
@[simp] theorem rxFlush_bits (s : State) : (rxFlush s).bits = s.bits := rfl
@[simp] theorem rxFlush_words (s : State) : (rxFlush s).words = s.words := rfl
@[simp] theorem rxFlush_rxq (s : State) : (rxFlush s).rxq = [] := rfl
@[simp] theorem rxFlush_txlog (s : State) : (rxFlush s).txlog = s.txlog := rfl
@[simp] theorem rxFlush_pending (s : State) : (rxFlush s).pending = s.pending := rfl
@[simp] theorem rxFlush_result (s : State) : (rxFlush s).result = s.result := rfl
@[simp] theorem rxFlush_draws (s : State) : (rxFlush s).draws = s.draws := rfl

/-! finish -/

@[simp] theorem finish_buf (p : PollStatus) (s : State) : (finish p s).buf = s.buf := rfl
@[simp] theorem finish_len (p : PollStatus) (s : State) : (finish p s).len = 0 := rfl
@[simp] theorem finish_slaveAddr (p : PollStatus) (s : State) : (finish p s).slaveAddr = s.slaveAddr := rfl
@[simp] theorem finish_tblCap (p : PollStatus) (s : State) : (finish p s).tblCap = s.tblCap := rfl
@[simp] theorem finish_tbl (p : PollStatus) (s : State) : (finish p s).tbl = s.tbl := rfl
@[simp] theorem finish_bits (p : PollStatus) (s : State) : (finish p s).bits = s.bits := rfl
@[simp] theorem finish_words (p : PollStatus) (s : State) : (finish p s).words = s.words := rfl
@[simp] theorem finish_rxq (p : PollStatus) (s : State) : (finish p s).rxq = s.rxq := rfl
@[simp] theorem finish_txlog (p : PollStatus) (s : State) : (finish p s).txlog = s.txlog := rfl
@[simp] theorem finish_pending (p : PollStatus) (s : State) : (finish p s).pending = s.pending := rfl
@[simp] theorem finish_result (p : PollStatus) (s : State) : (finish p s).result = .poll p := rfl
@[simp] theorem finish_draws (p : PollStatus) (s : State) : (finish p s).draws = s.draws := rfl

/-! returnStatus -/

@[simp] theorem returnStatus_buf (p : PollStatus) (s : State) : (returnStatus p s).buf = s.buf := rfl
@[simp] theorem returnStatus_len (p : PollStatus) (s : State) : (returnStatus p s).len = s.len := rfl
@[simp] theorem returnStatus_slaveAddr (p : PollStatus) (s : State) : (returnStatus p s).slaveAddr = s.slaveAddr := rfl
@[simp] theorem returnStatus_tblCap (p : PollStatus) (s : State) : (returnStatus p s).tblCap = s.tblCap := rfl
@[simp] theorem returnStatus_tbl (p : PollStatus) (s : State) : (returnStatus p s).tbl = s.tbl := rfl
@[simp] theorem returnStatus_bits (p : PollStatus) (s : State) : (returnStatus p s).bits = s.bits := rfl
@[simp] theorem returnStatus_words (p : PollStatus) (s : State) : (returnStatus p s).words = s.words := rfl
@[simp] theorem returnStatus_rxq (p : PollStatus) (s : State) : (returnStatus p s).rxq = s.rxq := rfl
@[simp] theorem returnStatus_txlog (p : PollStatus) (s : State) : (returnStatus p s).txlog = s.txlog := rfl
@[simp] theorem returnStatus_pending (p : PollStatus) (s : State) : (returnStatus p s).pending = s.pending := rfl
@[simp] theorem returnStatus_result (p : PollStatus) (s : State) : (returnStatus p s).result = .poll p := rfl
@[simp] theorem returnStatus_draws (p : PollStatus) (s : State) : (returnStatus p s).draws = s.draws := rfl

/-! raise -/

@[simp] theorem raise_buf (e : ExceptionCode) (fc : Byte) (s : State) : (raise e fc s).buf = s.buf := rfl
@[simp] theorem raise_len (e : ExceptionCode) (fc : Byte) (s : State) : (raise e fc s).len = s.len := rfl
@[simp] theorem raise_slaveAddr (e : ExceptionCode) (fc : Byte) (s : State) : (raise e fc s).slaveAddr = s.slaveAddr := rfl
@[simp] theorem raise_tblCap (e : ExceptionCode) (fc : Byte) (s : State) : (raise e fc s).tblCap = s.tblCap := rfl
@[simp] theorem raise_tbl (e : ExceptionCode) (fc : Byte) (s : State) : (raise e fc s).tbl = s.tbl := rfl
@[simp] theorem raise_bits (e : ExceptionCode) (fc : Byte) (s : State) : (raise e fc s).bits = s.bits := rfl
@[simp] theorem raise_words (e : ExceptionCode) (fc : Byte) (s : State) : (raise e fc s).words = s.words := rfl
@[simp] theorem raise_rxq (e : ExceptionCode) (fc : Byte) (s : State) : (raise e fc s).rxq = s.rxq := rfl
@[simp] theorem raise_txlog (e : ExceptionCode) (fc : Byte) (s : State) : (raise e fc s).txlog = s.txlog ++ [exceptionFrame e fc s] := rfl
@[simp] theorem raise_pending (e : ExceptionCode) (fc : Byte) (s : State) : (raise e fc s).pending = s.pending := rfl
@[simp] theorem raise_result (e : ExceptionCode) (fc : Byte) (s : State) : (raise e fc s).result = s.result := rfl
@[simp] theorem raise_draws (e : ExceptionCode) (fc : Byte) (s : State) : (raise e fc s).draws = s.draws := rfl

/-! dropFrame -/

@[simp] theorem dropFrame_buf (s : State) : (dropFrame s).buf = s.buf := rfl
@[simp] theorem dropFrame_len (s : State) : (dropFrame s).len = 0 := rfl
@[simp] theorem dropFrame_slaveAddr (s : State) : (dropFrame s).slaveAddr = s.slaveAddr := rfl
@[simp] theorem dropFrame_tblCap (s : State) : (dropFrame s).tblCap = s.tblCap := rfl
@[simp] theorem dropFrame_tbl (s : State) : (dropFrame s).tbl = s.tbl := rfl
@[simp] theorem dropFrame_bits (s : State) : (dropFrame s).bits = s.bits := rfl
@[simp] theorem dropFrame_words (s : State) : (dropFrame s).words = s.words := rfl
@[simp] theorem dropFrame_rxq (s : State) : (dropFrame s).rxq = s.rxq := rfl
@[simp] theorem dropFrame_txlog (s : State) : (dropFrame s).txlog = s.txlog := rfl
@[simp] theorem dropFrame_pending (s : State) : (dropFrame s).pending = s.pending := rfl
@[simp] theorem dropFrame_result (s : State) : (dropFrame s).result = .poll .dropped := rfl
@[simp] theorem dropFrame_draws (s : State) : (dropFrame s).draws = s.draws := rfl

/-! drain -/

@[simp] theorem drain_buf (s : State) : (drain s).buf = s.buf.writeList s.len (s.rxq.take (drainCount s)) := rfl
@[simp] theorem drain_len (s : State) : (drain s).len = s.len + drainCount s := rfl
@[simp] theorem drain_slaveAddr (s : State) : (drain s).slaveAddr = s.slaveAddr := rfl
@[simp] theorem drain_tblCap (s : State) : (drain s).tblCap = s.tblCap := rfl
@[simp] theorem drain_tbl (s : State) : (drain s).tbl = s.tbl := rfl
@[simp] theorem drain_bits (s : State) : (drain s).bits = s.bits := rfl
@[simp] theorem drain_words (s : State) : (drain s).words = s.words := rfl
@[simp] theorem drain_rxq (s : State) : (drain s).rxq = s.rxq.drop (drainCount s) := rfl
@[simp] theorem drain_txlog (s : State) : (drain s).txlog = s.txlog := rfl
@[simp] theorem drain_pending (s : State) : (drain s).pending = s.pending := rfl
@[simp] theorem drain_result (s : State) : (drain s).result = s.result := rfl
@[simp] theorem drain_draws (s : State) : (drain s).draws = s.draws := rfl

/-! returnNothing -/

@[simp] theorem returnNothing_buf (s : State) : (returnNothing s).buf = s.buf := rfl
@[simp] theorem returnNothing_len (s : State) : (returnNothing s).len = s.len := rfl
@[simp] theorem returnNothing_slaveAddr (s : State) : (returnNothing s).slaveAddr = s.slaveAddr := rfl
@[simp] theorem returnNothing_tblCap (s : State) : (returnNothing s).tblCap = s.tblCap := rfl
@[simp] theorem returnNothing_tbl (s : State) : (returnNothing s).tbl = s.tbl := rfl
@[simp] theorem returnNothing_bits (s : State) : (returnNothing s).bits = s.bits := rfl
@[simp] theorem returnNothing_words (s : State) : (returnNothing s).words = s.words := rfl
@[simp] theorem returnNothing_rxq (s : State) : (returnNothing s).rxq = s.rxq := rfl
@[simp] theorem returnNothing_txlog (s : State) : (returnNothing s).txlog = s.txlog := rfl
@[simp] theorem returnNothing_pending (s : State) : (returnNothing s).pending = s.pending := rfl
@[simp] theorem returnNothing_result (s : State) : (returnNothing s).result = .none := rfl
@[simp] theorem returnNothing_draws (s : State) : (returnNothing s).draws = s.draws := rfl

/-! returnInsert -/

@[simp] theorem returnInsert_buf (ok : Bool) (s : State) : (returnInsert ok s).buf = s.buf := rfl
@[simp] theorem returnInsert_len (ok : Bool) (s : State) : (returnInsert ok s).len = s.len := rfl
@[simp] theorem returnInsert_slaveAddr (ok : Bool) (s : State) : (returnInsert ok s).slaveAddr = s.slaveAddr := rfl
@[simp] theorem returnInsert_tblCap (ok : Bool) (s : State) : (returnInsert ok s).tblCap = s.tblCap := rfl
@[simp] theorem returnInsert_tbl (ok : Bool) (s : State) : (returnInsert ok s).tbl = s.tbl := rfl
@[simp] theorem returnInsert_bits (ok : Bool) (s : State) : (returnInsert ok s).bits = s.bits := rfl
@[simp] theorem returnInsert_words (ok : Bool) (s : State) : (returnInsert ok s).words = s.words := rfl
@[simp] theorem returnInsert_rxq (ok : Bool) (s : State) : (returnInsert ok s).rxq = s.rxq := rfl
@[simp] theorem returnInsert_txlog (ok : Bool) (s : State) : (returnInsert ok s).txlog = s.txlog := rfl
@[simp] theorem returnInsert_pending (ok : Bool) (s : State) : (returnInsert ok s).pending = s.pending := rfl
@[simp] theorem returnInsert_result (ok : Bool) (s : State) : (returnInsert ok s).result = .insert ok := rfl
@[simp] theorem returnInsert_draws (ok : Bool) (s : State) : (returnInsert ok s).draws = s.draws := rfl

/-! resetEngine -/

@[simp] theorem resetEngine_buf (s : State) : (resetEngine s).buf = s.buf := rfl
@[simp] theorem resetEngine_len (s : State) : (resetEngine s).len = 0 := rfl
@[simp] theorem resetEngine_slaveAddr (s : State) : (resetEngine s).slaveAddr = Config.freeByte s.draws := rfl
@[simp] theorem resetEngine_tblCap (s : State) : (resetEngine s).tblCap = s.tblCap := rfl
@[simp] theorem resetEngine_tbl (s : State) : (resetEngine s).tbl = [] := rfl
@[simp] theorem resetEngine_bits (s : State) : (resetEngine s).bits = s.bits := rfl
@[simp] theorem resetEngine_words (s : State) : (resetEngine s).words = s.words := rfl
@[simp] theorem resetEngine_rxq (s : State) : (resetEngine s).rxq = s.rxq := rfl
@[simp] theorem resetEngine_txlog (s : State) : (resetEngine s).txlog = s.txlog := rfl
@[simp] theorem resetEngine_pending (s : State) : (resetEngine s).pending = s.pending := rfl
@[simp] theorem resetEngine_result (s : State) : (resetEngine s).result = .none := rfl
@[simp] theorem resetEngine_draws (s : State) : (resetEngine s).draws = s.draws + 1 := rfl

/-! initEngine -/

@[simp] theorem initEngine_buf (addr : Byte) (s : State) : (initEngine addr s).buf = s.buf := rfl
@[simp] theorem initEngine_len (addr : Byte) (s : State) : (initEngine addr s).len = s.len := rfl
@[simp] theorem initEngine_slaveAddr (addr : Byte) (s : State) : (initEngine addr s).slaveAddr = addr := rfl
@[simp] theorem initEngine_tblCap (addr : Byte) (s : State) : (initEngine addr s).tblCap = s.tblCap := rfl
@[simp] theorem initEngine_tbl (addr : Byte) (s : State) : (initEngine addr s).tbl = s.tbl := rfl
@[simp] theorem initEngine_bits (addr : Byte) (s : State) : (initEngine addr s).bits = s.bits := rfl
@[simp] theorem initEngine_words (addr : Byte) (s : State) : (initEngine addr s).words = s.words := rfl
@[simp] theorem initEngine_rxq (addr : Byte) (s : State) : (initEngine addr s).rxq = s.rxq := rfl
@[simp] theorem initEngine_txlog (addr : Byte) (s : State) : (initEngine addr s).txlog = s.txlog := rfl
@[simp] theorem initEngine_pending (addr : Byte) (s : State) : (initEngine addr s).pending = s.pending := rfl
@[simp] theorem initEngine_result (addr : Byte) (s : State) : (initEngine addr s).result = .none := rfl
@[simp] theorem initEngine_draws (addr : Byte) (s : State) : (initEngine addr s).draws = s.draws := rfl

/-! arriveBytes -/

@[simp] theorem arriveBytes_buf (bytes : List Byte) (s : State) : (arriveBytes bytes s).buf = s.buf := rfl
@[simp] theorem arriveBytes_len (bytes : List Byte) (s : State) : (arriveBytes bytes s).len = s.len := rfl
@[simp] theorem arriveBytes_slaveAddr (bytes : List Byte) (s : State) : (arriveBytes bytes s).slaveAddr = s.slaveAddr := rfl
@[simp] theorem arriveBytes_tblCap (bytes : List Byte) (s : State) : (arriveBytes bytes s).tblCap = s.tblCap := rfl
@[simp] theorem arriveBytes_tbl (bytes : List Byte) (s : State) : (arriveBytes bytes s).tbl = s.tbl := rfl
@[simp] theorem arriveBytes_bits (bytes : List Byte) (s : State) : (arriveBytes bytes s).bits = s.bits := rfl
@[simp] theorem arriveBytes_words (bytes : List Byte) (s : State) : (arriveBytes bytes s).words = s.words := rfl
@[simp] theorem arriveBytes_rxq (bytes : List Byte) (s : State) : (arriveBytes bytes s).rxq = s.rxq ++ bytes := rfl
@[simp] theorem arriveBytes_txlog (bytes : List Byte) (s : State) : (arriveBytes bytes s).txlog = s.txlog := rfl
@[simp] theorem arriveBytes_pending (bytes : List Byte) (s : State) : (arriveBytes bytes s).pending = s.pending := rfl
@[simp] theorem arriveBytes_result (bytes : List Byte) (s : State) : (arriveBytes bytes s).result = .none := rfl
@[simp] theorem arriveBytes_draws (bytes : List Byte) (s : State) : (arriveBytes bytes s).draws = s.draws := rfl

/-! drawByte -/

@[simp] theorem drawByte_buf (s : State) : (drawByte s).2.buf = s.buf := rfl
@[simp] theorem drawByte_len (s : State) : (drawByte s).2.len = s.len := rfl
@[simp] theorem drawByte_slaveAddr (s : State) : (drawByte s).2.slaveAddr = s.slaveAddr := rfl
@[simp] theorem drawByte_tblCap (s : State) : (drawByte s).2.tblCap = s.tblCap := rfl
@[simp] theorem drawByte_tbl (s : State) : (drawByte s).2.tbl = s.tbl := rfl
@[simp] theorem drawByte_bits (s : State) : (drawByte s).2.bits = s.bits := rfl
@[simp] theorem drawByte_words (s : State) : (drawByte s).2.words = s.words := rfl
@[simp] theorem drawByte_rxq (s : State) : (drawByte s).2.rxq = s.rxq := rfl
@[simp] theorem drawByte_txlog (s : State) : (drawByte s).2.txlog = s.txlog := rfl
@[simp] theorem drawByte_pending (s : State) : (drawByte s).2.pending = s.pending := rfl
@[simp] theorem drawByte_result (s : State) : (drawByte s).2.result = s.result := rfl
@[simp] theorem drawByte_draws (s : State) : (drawByte s).2.draws = s.draws + 1 := rfl

end Sys2Proof.Machine
end

