-- ==== Sys2Proof/Laws/Store.lean ====
section
/-! SUPPORT. The laws of the sparse stores: read after write, and the canonical form. -/

namespace Sys2Proof.Machine

variable {α : Type}

@[simp] theorem listed_nil (k : Nat) : listed k ([] : List (Nat × α)) = none := rfl

theorem listed_cons (k k' : Nat) (v : α) (m : List (Nat × α)) :
    listed k ((k', v) :: m) = if k = k' then some v else listed k m := rfl

theorem listed_insertAt (k j : Nat) (v : α) (m : List (Nat × α)) :
    listed j (insertAt k v m) = if j = k then some v else listed j m := by
  induction m with
  | nil => simp [insertAt, listed_cons]
  | cons e m ih =>
    obtain ⟨k', v'⟩ := e
    simp only [insertAt]
    split_ifs with h1 h2 <;> simp only [listed_cons, ih] <;> split_ifs <;> simp_all

theorem rising_tail {e : Nat × α} {m : List (Nat × α)} (h : rising (e :: m) = true) : rising m = true := by
  cases m with
  | nil => rfl
  | cons e' m => obtain ⟨_, _⟩ := e; obtain ⟨_, _⟩ := e'; simp only [rising, Bool.and_eq_true] at h; exact h.2

theorem rising_cons {k : Nat} {v : α} {m : List (Nat × α)} (h : rising m = true) (hk : ∀ e ∈ m.head?, k < e.1) :
    rising ((k, v) :: m) = true := by
  cases m with
  | nil => rfl
  | cons e m => obtain ⟨k', v'⟩ := e; simp [rising, h, hk (k', v') (by simp)]

theorem rising_head {k : Nat} {v : α} {m : List (Nat × α)} (h : rising ((k, v) :: m) = true) :
    ∀ e ∈ m.head?, k < e.1 := by
  cases m with
  | nil => simp
  | cons e m => obtain ⟨k', v'⟩ := e; simp only [rising, Bool.and_eq_true, decide_eq_true_eq] at h; simpa using h.1

theorem listed_removeAt (k : Nat) (m : List (Nat × α)) (j : Nat) :
    listed j (removeAt k m) = if j = k then none else listed j m := by
  induction m with
  | nil => simp [removeAt]
  | cons e m ih =>
    obtain ⟨k', v'⟩ := e
    unfold removeAt at ih ⊢
    by_cases h1 : k' = k
    · subst h1; simp only [ne_eq, not_true_eq_false, decide_false, Bool.false_eq_true, not_false_eq_true,
        List.filter_cons_of_neg, listed_cons, ih]
      split_ifs <;> rfl
    · simp only [ne_eq, h1, not_false_eq_true, decide_true, List.filter_cons_of_pos, listed_cons, ih]
      split_ifs <;> simp_all

/-- The first key after an insertion. -/
theorem head_insertAt {k : Nat} {v : α} {m : List (Nat × α)} :
    ∀ e ∈ (insertAt k v m).head?, e.1 = k ∨ e ∈ m.head? := by
  cases m with
  | nil => simp [insertAt]
  | cons e m => obtain ⟨k', v'⟩ := e; simp only [insertAt]; split_ifs <;> simp_all

theorem rising_insertAt {k : Nat} {v : α} {m : List (Nat × α)} (h : rising m = true) :
    rising (insertAt k v m) = true := by
  induction m with
  | nil => rfl
  | cons e m ih =>
    obtain ⟨k', v'⟩ := e
    simp only [insertAt]
    split_ifs with h1 h2
    · exact rising_cons h (by simpa using h1)
    · subst h2; exact rising_cons (rising_tail h) (rising_head h)
    · refine rising_cons (ih (rising_tail h)) fun e he => ?_
      rcases head_insertAt e he with h3 | h3
      · omega
      · exact rising_head h e h3

theorem mem_removeAt {k : Nat} {m : List (Nat × α)} {e : Nat × α} (he : e ∈ removeAt k m) : e ∈ m :=
  (List.mem_filter.mp he).1

/-- Every later key is larger. -/
theorem rising_lt {k : Nat} {v : α} {m : List (Nat × α)} (h : rising ((k, v) :: m) = true) : ∀ e ∈ m, k < e.1 := by
  induction m generalizing k v with
  | nil => simp
  | cons e m ih =>
    obtain ⟨k', v'⟩ := e
    have hk : k < k' := rising_head h (k', v') (by simp)
    intro e he
    rcases List.mem_cons.mp he with rfl | he
    · exact hk
    · exact hk.trans (ih (rising_tail h) e he)

theorem rising_removeAt {k : Nat} {m : List (Nat × α)} (h : rising m = true) : rising (removeAt k m) = true := by
  induction m with
  | nil => rfl
  | cons e m ih =>
    obtain ⟨k', v'⟩ := e
    have ih := ih (rising_tail h)
    by_cases h1 : k' = k
    · simpa [removeAt, h1] using ih
    · have : removeAt k ((k', v') :: m) = (k', v') :: removeAt k m := by simp [removeAt, h1]
      rw [this]
      exact rising_cons ih fun e he => rising_lt h e (mem_removeAt (List.mem_of_mem_head? he))

theorem mem_insertAt {k : Nat} {v : α} {m : List (Nat × α)} {e : Nat × α} (he : e ∈ insertAt k v m) :
    e = (k, v) ∨ e ∈ m := by
  induction m with
  | nil => simpa [insertAt] using he
  | cons e' m ih =>
    obtain ⟨k', v'⟩ := e'
    simp only [insertAt] at he
    split_ifs at he <;> simp only [List.mem_cons] at he ⊢ <;> tauto

/-! The buffer. -/

@[simp] theorem Memory.read_write (m : Memory) (i j : Nat) (b : Byte) :
    (m.write i b).read j = if j = i then some b else m.read j := listed_insertAt i j b m

theorem Memory.wf_write {m : Memory} (h : m.wf = true) (i : Nat) (b : Byte) : (m.write i b).wf = true :=
  rising_insertAt h

/-- A byte after a list of bytes has been stored from index `i` on. -/
theorem Memory.read_writeList (m : Memory) (i : Nat) (bs : List Byte) (j : Nat) :
    (m.writeList i bs).read j = if i ≤ j ∧ j < i + bs.length then bs[j - i]? else m.read j := by
  induction bs generalizing m i with
  | nil => simp only [Memory.writeList, List.length_nil]; rw [if_neg (by omega)]
  | cons b bs ih =>
    rw [Memory.writeList, ih, Memory.read_write]
    by_cases h1 : j = i
    · subst h1; simp
    · by_cases h2 : i ≤ j
      · have : j - i = (j - (i + 1)) + 1 := by omega
        simp only [h1, this, List.getElem?_cons_succ, List.length_cons, if_false]
        congr 1
        simp only [eq_iff_iff]; omega
      · rw [if_neg (by omega), if_neg h1, if_neg (by simp; omega)]

theorem Memory.wf_writeList {m : Memory} (h : m.wf = true) (i : Nat) (bs : List Byte) :
    (m.writeList i bs).wf = true := by
  induction bs generalizing m i with
  | nil => exact h
  | cons b bs ih => exact ih (Memory.wf_write h i b) (i + 1)

theorem Memory.writeList_bound {m : Memory} {n : Nat} (h : ∀ c ∈ m, c.1 < n) (i : Nat) (bs : List Byte)
    (hi : i + bs.length ≤ n) : ∀ c ∈ m.writeList i bs, c.1 < n := by
  induction bs generalizing m i with
  | nil => exact h
  | cons b bs ih =>
    refine ih (fun c hc => ?_) (i + 1) (by simp at hi; omega)
    rcases mem_insertAt hc with rfl | hc
    · simp at hi ⊢; omega
    · exact h c hc

/-! The cells. -/

variable [DecidableEq α]

theorem cellsWf_iff {d : α} {m : List (Nat × α)} :
    cellsWf d m = true ↔ rising m = true ∧ ∀ e ∈ m, e.2 ≠ d := by
  simp [cellsWf]

theorem cellsWf_cellWrite {d : α} {m : List (Nat × α)} (h : cellsWf d m = true) (k : Handle) (v : α) :
    cellsWf d (cellWrite d m k v) = true := by
  rw [cellsWf_iff] at h ⊢
  unfold cellWrite
  split_ifs with hv
  · exact ⟨rising_removeAt h.1, fun e he => h.2 e (mem_removeAt he)⟩
  · refine ⟨rising_insertAt h.1, fun e he => ?_⟩
    rcases mem_insertAt he with rfl | he
    · exact hv
    · exact h.2 e he

/-- Read after write, on every list, canonical or not. -/
theorem cellRead_cellWrite (d : α) (m : List (Nat × α)) (k j : Handle) (v : α) :
    cellRead d (cellWrite d m k v) j = if j = k then v else cellRead d m j := by
  unfold cellRead cellWrite
  split_ifs with hv hj hj
  · simp [listed_removeAt, hj, hv]
  · simp [listed_removeAt, hj]
  · simp [listed_insertAt, hj]
  · simp [listed_insertAt, hj]

end Sys2Proof.Machine
end

