-- ==== Sys2Proof/Laws/Ops.lean ====
section
/-! SUPPORT. Everything the shared operations can do, said once each. -/

namespace Sys2Proof.Machine

/-! Cells. -/

@[simp] theorem readBit_writeBit (h j : Handle) (v : Bool) (s : State) :
    readBit (writeBit h v s) j = if j = h then v else readBit s j := cellRead_cellWrite false s.bits h j v

@[simp] theorem readWord_writeWord (h j : Handle) (v : Word) (s : State) :
    readWord (writeWord h v s) j = if j = h then v else readWord s j := cellRead_cellWrite 0x0000#16 s.words h j v

theorem readBit_congr {s t : State} (h : t.bits = s.bits) (j : Handle) : readBit t j = readBit s j := by
  simp [readBit, h]

theorem readWord_congr {s t : State} (h : t.words = s.words) (j : Handle) : readWord t j = readWord s j := by
  simp [readWord, h]

/-! The Register Table. -/

theorem lookup_congr {s t : State} (h : t.tbl = s.tbl) (a : Word) : lookup a t = lookup a s := by simp [lookup, h]

theorem resolve_congr {s t : State} (h : t.tbl = s.tbl) (a : Nat) (k : Kind) : resolve a k t = resolve a k s := by
  simp [resolve, lookup, h]

/-- What lookup finds stands in the table, at its address (R218). -/
theorem lookup_eq_some {a : Word} {s : State} {e : Register} (h : lookup a s = some e) : e ∈ s.tbl ∧ e.addr = a :=
  ⟨List.mem_of_find?_eq_some h, by simpa using List.find?_some h⟩

/-- What resolves is registered, with the kind asked for (R161). -/
theorem resolve_eq_some {a : Nat} {k : Kind} {s : State} {h : Handle} (hr : resolve a k s = some h) :
    a ≤ 0xFFFF ∧ lookup (BitVec.ofNat 16 a) s = some ⟨BitVec.ofNat 16 a, k, h⟩ := by
  unfold resolve at hr
  split_ifs at hr with ha
  split at hr
  · cases hr
  · rename_i e he
    split_ifs at hr with hk
    obtain ⟨e1, e2, e3⟩ := e
    have := (lookup_eq_some he).2
    simp only [Option.some.injEq] at hr hk this
    subst hr; subst hk; subst this
    exact ⟨by omega, he⟩

theorem resolve_eq_some_iff {a : Nat} {k : Kind} {s : State} {h : Handle} :
    resolve a k s = some h ↔ a ≤ 0xFFFF ∧ lookup (BitVec.ofNat 16 a) s = some ⟨BitVec.ofNat 16 a, k, h⟩ := by
  constructor
  · exact resolve_eq_some
  · rintro ⟨ha, hl⟩
    simp [resolve, hl, show ¬ a > 0xFFFF by omega]

/-- The entry a resolved address names. -/
theorem resolve_mem {a : Nat} {k : Kind} {s : State} {h : Handle} (hr : resolve a k s = some h) :
    (⟨BitVec.ofNat 16 a, k, h⟩ : Register) ∈ s.tbl := (lookup_eq_some (resolve_eq_some hr).2).1

/-- In a table of distinct addresses every entry is found at its own (R215 I2). -/
theorem lookup_of_mem {s : State} (ht : (s.tbl.map Register.addr).Nodup) {e : Register} (he : e ∈ s.tbl) :
    lookup e.addr s = some e := by
  unfold lookup
  generalize s.tbl = l at *
  induction l with
  | nil => cases he
  | cons e' l ih =>
    simp only [List.map_cons, List.nodup_cons] at ht
    rcases List.mem_cons.mp he with rfl | he
    · simp
    · have : e'.addr ≠ e.addr := fun h => ht.1 (h ▸ List.mem_map_of_mem he)
      rw [List.find?_cons_of_neg (by simpa using this)]
      exact ih ht.2 he

/-! The ends of a handler. -/

theorem raiseAddress_eq (fc : Byte) (s : State) : raiseAddress fc s = .next { s with
    txlog := s.txlog ++ [appendCrc [s.slaveAddr, fc ||| 0x80#8, 0x02#8]], len := 0, result := .poll .exception } := rfl

theorem replyNormal_eq (f : List Byte) (s : State) :
    replyNormal f s = .next { s with txlog := s.txlog ++ [f], len := 0, result := .poll .replied } := rfl

/-! Operands. -/

/-- A data byte: refused beyond the buffer, the frame's own byte, or a draw (R185). -/
theorem requestByte_eq (f : List Byte) (j : Nat) (s : State) :
    requestByte f j s = if 255 ≤ j then .error (.dataBeyondBuffer j)
      else if j < f.length then .ok (f.getD j 0#8, s) else .ok (drawByte s) := by
  unfold requestByte
  simp only [Config.bufCap, ge_iff_le]
  split_ifs with h1 h2
  · rfl
  · rw [List.getElem?_eq_getElem h2, List.getD_eq_getElem _ _ h2]
  · rw [List.getElem?_eq_none (by omega)]

/-- Reading a data byte changes the draw counter only. -/
theorem requestByte_frame {f : List Byte} {j : Nat} {s s' : State} {b : Byte} (h : requestByte f j s = .ok (b, s')) :
    j ≤ 254 ∧ s' = { s with draws := s'.draws } ∧ (j < f.length → b = f.getD j 0#8 ∧ s' = s) := by
  rw [requestByte_eq] at h
  split_ifs at h with h1 h2
  · cases h; exact ⟨by omega, rfl, fun _ => ⟨rfl, rfl⟩⟩
  · cases h; exact ⟨by omega, rfl, fun h3 => absurd h3 h2⟩

/-- Within the buffer a data byte is read. -/
theorem requestByte_ok (f : List Byte) {j : Nat} (s : State) (hj : j ≤ 254) :
    ∃ b s', requestByte f j s = .ok (b, s') := by
  rw [requestByte_eq, if_neg (by omega)]
  split_ifs <;> exact ⟨_, _, rfl⟩

/-- Code 15: everything storing one coil can do when it goes on (R89, R182, R185). -/
theorem storeCoil_frame {f : List Byte} {i : Nat} {h : Handle} {s s' : State} (hs : storeCoil f i h s = .ok s') :
    s' = { s with bits := s'.bits, draws := s'.draws } ∧ (∀ j, j ≠ h → readBit s' j = readBit s j) ∧
      (7 + i / 8 < f.length → readBit s' h = (f.getD (7 + i / 8) 0#8).getLsbD (i % 8) ∧ s'.draws = s.draws) := by
  unfold storeCoil at hs
  split at hs
  · cases hs
  · rename_i b s1 hb
    obtain ⟨-, h1, h2⟩ := requestByte_frame hb
    cases hs
    refine ⟨by rw [h1]; rfl, fun j hj => ?_, fun hf => ?_⟩
    · rw [readBit_writeBit, if_neg hj, h1]; rfl
    · obtain ⟨rfl, rfl⟩ := h2 hf
      exact ⟨by simp [bitOfByte], rfl⟩

theorem storeCoil_ok (f : List Byte) {i : Nat} (h : Handle) (s : State) (hi : 7 + i / 8 ≤ 254) :
    ∃ s', storeCoil f i h s = .ok s' := by
  obtain ⟨b, s', hb⟩ := requestByte_ok f s hi
  exact ⟨_, by simp only [storeCoil, hb]; rfl⟩

theorem storeCoil_beyond (f : List Byte) {i : Nat} (h : Handle) (s : State) (hi : 255 ≤ 7 + i / 8) :
    storeCoil f i h s = .error (.dataBeyondBuffer (7 + i / 8)) := by
  simp [storeCoil, requestByte_eq, hi]

/-- Code 16: everything storing one register can do when it goes on (R90, R183, R185). -/
theorem storeRegister_frame {f : List Byte} {i : Nat} {h : Handle} {s s' : State}
    (hs : storeRegister f i h s = .ok s') :
    s' = { s with words := s'.words, draws := s'.draws } ∧ (∀ j, j ≠ h → readWord s' j = readWord s j) ∧
      (8 + 2 * i < f.length → readWord s' h = be16 (f.getD (7 + 2 * i) 0#8) (f.getD (8 + 2 * i) 0#8) ∧
        s'.draws = s.draws) := by
  unfold storeRegister at hs
  split at hs
  · cases hs
  · rename_i hi s1 hb
    split at hs
    · cases hs
    · rename_i lo s2 hb2
      obtain ⟨-, h1, h2⟩ := requestByte_frame hb
      obtain ⟨-, h3, h4⟩ := requestByte_frame hb2
      cases hs
      refine ⟨by rw [h3, h1]; rfl, fun j hj => ?_, fun hf => ?_⟩
      · rw [readWord_writeWord, if_neg hj, h3, h1]; rfl
      · obtain ⟨rfl, rfl⟩ := h4 hf
        obtain ⟨rfl, rfl⟩ := h2 (by omega)
        exact ⟨by simp, rfl⟩

theorem storeRegister_ok (f : List Byte) {i : Nat} (h : Handle) (s : State) (hi : 8 + 2 * i ≤ 254) :
    ∃ s', storeRegister f i h s = .ok s' := by
  obtain ⟨b, s', hb⟩ := requestByte_ok f s (show 7 + 2 * i ≤ 254 by omega)
  obtain ⟨b2, s2, hb2⟩ := requestByte_ok f s' hi
  exact ⟨_, by simp only [storeRegister, hb, hb2]; rfl⟩

theorem storeRegister_beyond (f : List Byte) {i : Nat} (h : Handle) (s : State) (hi : 255 ≤ 7 + 2 * i) :
    storeRegister f i h s = .error (.dataBeyondBuffer (7 + 2 * i)) := by
  simp [storeRegister, requestByte_eq, hi]

end Sys2Proof.Machine
end

