-- ==== Sys2Proof/Laws/Handlers.lean ====
section
/-! SUPPORT. The iterations of the handlers: what they do, and every way they can end. -/

namespace Sys2Proof.Machine

/-! Reads. -/

/-- Every register resolves: the values in ascending order (R160). -/
theorem readEach_eq_some {α : Type} (read : Handle → α) (k : Kind) (start : Nat) (s : State) (hs : Nat → Handle)
    (n i : Nat) (h : ∀ j, j < n → resolve (start + (i + j)) k s = some (hs (i + j))) :
    readEach read k start s i n = some ((List.range n).map fun j => read (hs (i + j))) := by
  induction n generalizing i with
  | zero => rfl
  | succ n ih =>
    have h0 : resolve (start + i) k s = some (hs i) := by simpa using h 0 (by omega)
    have h1 := ih (i + 1) fun j hj => by
      have := h (j + 1) (by omega)
      rwa [show i + (j + 1) = i + 1 + j by omega] at this
    simp only [readEach, h0, h1, List.range_succ_eq_map, List.map_cons, List.map_map]
    congr 2
    simp only [List.map_inj_left, Function.comp]
    intro j _
    rw [show i + 1 + j = i + (j + 1) by omega]

/-- Some register does not resolve: nothing is read (R160). -/
theorem readEach_eq_none {α : Type} (read : Handle → α) (k : Kind) (start : Nat) (s : State) (n i m : Nat)
    (hm : m < n) (h : resolve (start + (i + m)) k s = none) : readEach read k start s i n = none := by
  induction n generalizing i m with
  | zero => omega
  | succ n ih =>
    simp only [readEach]
    cases m with
    | zero => simp only [Nat.add_zero] at h; simp [h]
    | succ m =>
      have := ih (i + 1) m (by omega) (by rwa [show i + 1 + m = i + (m + 1) by omega])
      split
      · rfl
      · simp [this]

/-- The values read, whatever the state otherwise: `n` of them. -/
theorem readEach_length {α : Type} {read : Handle → α} {k : Kind} {start : Nat} {s : State} {n i : Nat} {vs : List α}
    (h : readEach read k start s i n = some vs) : vs.length = n := by
  induction n generalizing i vs with
  | zero => simp [readEach] at h; simp [← h]
  | succ n ih =>
    simp only [readEach] at h
    split at h
    · cases h
    · split at h
      · cases h
      · rename_i vs' hv
        simp only [Option.some.injEq] at h
        simp [← h, ih hv]

/-- What was read resolved. -/
theorem readEach_resolves {α : Type} {read : Handle → α} {k : Kind} {start : Nat} {s : State} {n i : Nat} {vs : List α}
    (h : readEach read k start s i n = some vs) : ∀ j, j < n → (resolve (start + (i + j)) k s).isSome = true := by
  intro j hj
  by_contra hn
  rw [readEach_eq_none read k start s n i j hj (by simpa using hn)] at h
  cases h

theorem readEach_congr {α : Type} {read : Handle → α} {k : Kind} {start : Nat} {s t : State} (h : t.tbl = s.tbl)
    (n i : Nat) : readEach read k start t i n = readEach read k start s i n := by
  induction n generalizing i with
  | zero => rfl
  | succ n ih => simp only [readEach, resolve_congr h, ih]

/-- Every way a read of booleans can end. -/
theorem readBits_cases (k : Kind) (addr fc : Byte) (start qty : Word) (s : State) :
    readBits k addr fc start qty s = raiseAddress fc s ∨
    ∃ d : List Byte, d.length = ceil8 qty.toNat ∧
      (∀ j, j < qty.toNat → (resolve (start.toNat + j) k s).isSome = true) ∧
      readBits k addr fc start qty s = replyData addr fc d s := by
  unfold readBits
  split
  · exact .inl rfl
  · rename_i bs hb
    exact .inr ⟨packBits bs, by simp [readEach_length hb], by simpa using readEach_resolves hb, rfl⟩

/-- Every way a read of words can end. -/
theorem readWords_cases (k : Kind) (addr fc : Byte) (start qty : Word) (s : State) :
    readWords k addr fc start qty s = raiseAddress fc s ∨
    ∃ d : List Byte, d.length = 2 * qty.toNat ∧
      (∀ j, j < qty.toNat → (resolve (start.toNat + j) k s).isSome = true) ∧
      readWords k addr fc start qty s = replyData addr fc d s := by
  unfold readWords
  split
  · exact .inl rfl
  · rename_i ws hw
    exact .inr ⟨_, by rw [flatMap_enc16_length, readEach_length hw], by simpa using readEach_resolves hw, rfl⟩

/-- A data reply is sent or refused (R204). -/
theorem replyData_eq (addr fc : Byte) (d : List Byte) (s : State) : replyData addr fc d s =
    if 255 < d.length + 5 then .refused (.replyTooLong (d.length + 5))
    else .next { s with txlog := s.txlog ++ [appendCrc ([addr, fc, BitVec.ofNat 8 d.length] ++ d)], len := 0,
                        result := .poll .replied } := rfl

/-! Writes. -/

section
variable {k : Kind} {start : Nat} {store : Nat → Handle → State → Except Refusal State}

/-- The first `m` registers resolve and are written; `P j` is what holds before register `j`. -/
theorem writeEach_steps (P : Nat → State → Prop) (m i : Nat) (s : State) (h0 : P i s)
    (hP : ∀ j u, i ≤ j → j < i + m → P j u →
      ∃ h u', resolve (start + j) k u = some h ∧ store j h u = .ok u' ∧ P (j + 1) u') :
    ∃ t, P (i + m) t ∧ ∀ n, writeEach k start store i (m + n) s = writeEach k start store (i + m) n t := by
  induction m generalizing i s with
  | zero => exact ⟨s, h0, fun n => by simp⟩
  | succ m ih =>
    obtain ⟨h, u, hr, hst, hu⟩ := hP i s le_rfl (by omega) h0
    obtain ⟨t, ht, hn⟩ := ih (i + 1) u hu fun j u' h1 h2 => hP j u' (by omega) (by omega)
    refine ⟨t, by rwa [show i + (m + 1) = i + 1 + m by omega], fun n => ?_⟩
    rw [show m + 1 + n = (m + n) + 1 by omega, writeEach]
    simp only [hr, hst, hn, show i + 1 + m = i + (m + 1) by omega]

theorem writeEach_missing {s : State} {i n : Nat} (h : resolve (start + i) k s = none) :
    writeEach k start store i (n + 1) s = .missing s := by
  simp [writeEach, h]

theorem writeEach_beyond {s : State} {i n : Nat} {h : Handle} {r : Refusal} (hr : resolve (start + i) k s = some h)
    (hst : store i h s = .error r) : writeEach k start store i (n + 1) s = .beyond r := by
  simp [writeEach, hr, hst]

/-- What every store keeps, the iteration keeps, however it ends. -/
theorem writeEach_keeps (P : State → Prop) (n i : Nat) (s : State) (h0 : P s)
    (hP : ∀ j u h u', i ≤ j → j < i + n → P u → resolve (start + j) k u = some h → store j h u = .ok u' → P u') :
    (∀ t, writeEach k start store i n s = .done t → P t) ∧ (∀ t, writeEach k start store i n s = .missing t → P t) := by
  induction n generalizing i s with
  | zero => exact ⟨fun t ht => (by cases ht; exact h0), fun t ht => by cases ht⟩
  | succ n ih =>
    simp only [writeEach]
    split
    · exact ⟨fun t ht => (by cases ht), fun t ht => by cases ht; exact h0⟩
    · rename_i h hr
      split
      · exact ⟨fun t ht => (by cases ht), fun t ht => by cases ht⟩
      · rename_i u hst
        exact ih (i + 1) u (hP i s h u le_rfl (by omega) h0 hr hst) fun j v h' v' h1 h2 =>
          hP j v h' v' (by omega) (by omega)
end

/-- What the iteration of a multiple write has done to the boolean cells after `m` coils of `f` (R182, R67). -/
def CoilsWritten (f : List Byte) (hs : Nat → Handle) (s : State) (m : Nat) (t : State) : Prop :=
  t = { s with bits := t.bits, draws := t.draws } ∧
  (∀ i, i < m → (∀ j, i < j → j < m → hs j ≠ hs i) → 7 + i / 8 < f.length →
    readBit t (hs i) = (f.getD (7 + i / 8) 0#8).getLsbD (i % 8)) ∧
  (∀ h, (∀ i, i < m → hs i ≠ h) → readBit t h = readBit s h) ∧
  ((∀ i, i < m → 7 + i / 8 < f.length) → t.draws = s.draws)

theorem CoilsWritten.zero (f : List Byte) (hs : Nat → Handle) (s : State) : CoilsWritten f hs s 0 s :=
  ⟨rfl, fun i hi => by omega, fun _ _ => rfl, fun _ => rfl⟩

theorem CoilsWritten.succ {f : List Byte} {hs : Nat → Handle} {s t u : State} {m : Nat} (h : CoilsWritten f hs s m t)
    (hst : storeCoil f m (hs m) t = .ok u) : CoilsWritten f hs s (m + 1) u := by
  obtain ⟨h1, h2, h3, h4⟩ := h
  obtain ⟨k1, k2, k3⟩ := storeCoil_frame hst
  refine ⟨by rw [k1, h1], fun i hi hl hf => ?_, fun h hh => ?_, fun hf => ?_⟩
  · rcases Nat.lt_succ_iff_lt_or_eq.mp hi with hi' | rfl
    · rw [k2 _ (hl m hi' (by omega)).symm]
      exact h2 i hi' (fun j hj1 hj2 => hl j hj1 (by omega)) hf
    · exact (k3 hf).1
  · rw [k2 _ (hh m (by omega)).symm]
    exact h3 h fun i hi => hh i (by omega)
  · rw [(k3 (hf m (by omega))).2, h4 fun i hi => hf i (by omega)]

/-- The first `m` coils of a request that resolve and whose data lies in the buffer are written. -/
theorem writeEach_coils (f : List Byte) (hs : Nat → Handle) (s : State) (start m : Nat)
    (hr : ∀ i, i < m → resolve (start + i) .coil s = some (hs i)) (hd : ∀ i, i < m → 7 + i / 8 ≤ 254) :
    ∃ t, CoilsWritten f hs s m t ∧
      ∀ n, writeEach .coil start (storeCoil f) 0 (m + n) s = writeEach .coil start (storeCoil f) m n t := by
  have := writeEach_steps (k := .coil) (start := start) (store := storeCoil f) (fun j u => CoilsWritten f hs s j u) m 0 s
    (CoilsWritten.zero f hs s) fun j u _ hj hu => by
      obtain ⟨u', hu'⟩ := storeCoil_ok f (hs j) u (hd j (by omega))
      exact ⟨hs j, u', by rw [resolve_congr (by rw [hu.1])]; exact hr j (by omega), hu', hu.succ hu'⟩
  simpa using this

/-- What the iteration of a multiple write has done to the word cells after `m` registers of `f` (R183, R67). -/
def RegistersWritten (f : List Byte) (hs : Nat → Handle) (s : State) (m : Nat) (t : State) : Prop :=
  t = { s with words := t.words, draws := t.draws } ∧
  (∀ i, i < m → (∀ j, i < j → j < m → hs j ≠ hs i) → 8 + 2 * i < f.length →
    readWord t (hs i) = be16 (f.getD (7 + 2 * i) 0#8) (f.getD (8 + 2 * i) 0#8)) ∧
  (∀ h, (∀ i, i < m → hs i ≠ h) → readWord t h = readWord s h) ∧
  ((∀ i, i < m → 8 + 2 * i < f.length) → t.draws = s.draws)

theorem RegistersWritten.zero (f : List Byte) (hs : Nat → Handle) (s : State) : RegistersWritten f hs s 0 s :=
  ⟨rfl, fun i hi => by omega, fun _ _ => rfl, fun _ => rfl⟩

theorem RegistersWritten.succ {f : List Byte} {hs : Nat → Handle} {s t u : State} {m : Nat}
    (h : RegistersWritten f hs s m t) (hst : storeRegister f m (hs m) t = .ok u) :
    RegistersWritten f hs s (m + 1) u := by
  obtain ⟨h1, h2, h3, h4⟩ := h
  obtain ⟨k1, k2, k3⟩ := storeRegister_frame hst
  refine ⟨by rw [k1, h1], fun i hi hl hf => ?_, fun h hh => ?_, fun hf => ?_⟩
  · rcases Nat.lt_succ_iff_lt_or_eq.mp hi with hi' | rfl
    · rw [k2 _ (hl m hi' (by omega)).symm]
      exact h2 i hi' (fun j hj1 hj2 => hl j hj1 (by omega)) hf
    · exact (k3 hf).1
  · rw [k2 _ (hh m (by omega)).symm]
    exact h3 h fun i hi => hh i (by omega)
  · rw [(k3 (hf m (by omega))).2, h4 fun i hi => hf i (by omega)]

/-- The first `m` registers of a request that resolve and whose data lies in the buffer are written. -/
theorem writeEach_registers (f : List Byte) (hs : Nat → Handle) (s : State) (start m : Nat)
    (hr : ∀ i, i < m → resolve (start + i) .holdingRegister s = some (hs i)) (hd : ∀ i, i < m → 8 + 2 * i ≤ 254) :
    ∃ t, RegistersWritten f hs s m t ∧ ∀ n, writeEach .holdingRegister start (storeRegister f) 0 (m + n) s =
      writeEach .holdingRegister start (storeRegister f) m n t := by
  have := writeEach_steps (k := .holdingRegister) (start := start) (store := storeRegister f)
    (fun j u => RegistersWritten f hs s j u) m 0 s (RegistersWritten.zero f hs s) fun j u _ hj hu => by
      obtain ⟨u', hu'⟩ := storeRegister_ok f (hs j) u (hd j (by omega))
      exact ⟨hs j, u', by rw [resolve_congr (by rw [hu.1])]; exact hr j (by omega), hu', hu.succ hu'⟩
  simpa using this

end Sys2Proof.Machine
end

