-- ==== Sys2Proof/Laws/Poll.lean ====
section
/-! SUPPORT. The drain, the front of POLL, and every way a POLL can go on. -/

namespace Sys2Proof.Machine

@[simp] theorem bufBytes_length (s : State) : (bufBytes s).length = s.len := by simp [bufBytes]

/-- A valid byte of the buffer, as an element of `buf[0..len-1]`. -/
theorem bufBytes_getD (s : State) (i : Nat) (h : i < s.len) (d : Byte) : (bufBytes s).getD i d = bufByte s i := by
  rw [List.getD_eq_getElem _ _ (by simpa using h)]
  simp [bufBytes]

/-- With two bytes or more the function code is the second (R130). -/
theorem bufBytes_eq_cons (s : State) (h : 2 ≤ s.len) :
    ∃ rest, bufBytes s = bufByte s 0 :: bufByte s 1 :: rest := by
  obtain ⟨n, hn⟩ : ∃ n, s.len = n + 2 := ⟨s.len - 2, by omega⟩
  refine ⟨(List.range n).map fun i => bufByte s (i + 2), ?_⟩
  simp [bufBytes, hn, List.range_succ_eq_map, Function.comp_def]

theorem drainCount_eq (s : State) : drainCount s = min s.rxq.length (255 - s.len) := rfl

theorem drainCount_le (s : State) : drainCount s ≤ s.rxq.length := by rw [drainCount_eq]; omega

/-- The byte stored at an index after a drain (R131). -/
theorem drain_read (s : State) (j : Nat) : (drain s).buf.read j =
    if s.len ≤ j ∧ j < s.len + drainCount s then s.rxq[j - s.len]? else s.buf.read j := by
  have := drainCount_le s
  rw [drain_buf, Memory.read_writeList]
  by_cases h : s.len ≤ j ∧ j < s.len + drainCount s
  · rw [if_pos (by simp; omega), if_pos h, List.getElem?_take_of_lt (by omega)]
  · rw [if_neg (by simp; omega), if_neg h]

/-- The bytes below the old `len` are untouched (R22). -/
theorem drain_bufByte_old (s : State) (j : Nat) (h : j < s.len) : bufByte (drain s) j = bufByte s j := by
  rw [bufByte, drain_read, if_neg (by omega), bufByte]

/-- The new bytes are the head of the queue, in order (R131). -/
theorem drain_bufByte_new (s : State) (j : Nat) (h : j < drainCount s) :
    bufByte (drain s) (s.len + j) = s.rxq.getD j 0#8 := by
  have := drainCount_le s
  rw [bufByte, drain_read, if_pos (by omega), show s.len + j - s.len = j by omega,
    List.getElem?_eq_getElem (by omega), List.getD_eq_getElem _ _ (by omega)]
  rfl

/-- The drain appends to the valid bytes (R131). -/
theorem bufBytes_drain (s : State) : bufBytes (drain s) = bufBytes s ++ s.rxq.take (drainCount s) := by
  have hle := drainCount_le s
  apply List.ext_getElem
  · simp; omega
  · intro j h1 h2
    have h1 : j < s.len + drainCount s := by simpa using h1
    by_cases h : j < s.len
    · rw [List.getElem_append_left (by simpa using h)]
      simp [bufBytes, drain_bufByte_old s j h]
    · rw [List.getElem_append_right (by simp; omega)]
      have := drain_bufByte_new s (j - s.len) (by omega)
      rw [show s.len + (j - s.len) = j by omega, List.getD_eq_getElem _ _ (by omega)] at this
      simp [bufBytes, this]

/-- What the state a POLL starts from shares with the state before it: everything but `pending`. -/
theorem pollNext_eq {s s0 : State} (h : PollNext s s0) : s0 = { s with pending := s0.pending } := by
  rcases h with ⟨_, rfl⟩ | ⟨_, h⟩
  · rfl
  · exact h

/-- The step of a POLL is the POLL of the state it starts from. -/
theorem step_poll {s s0 : State} (h : PollNext s s0) : step s = poll s0 := by
  rcases h with ⟨h1, rfl⟩ | ⟨h1, h2⟩
  · simp [step, h1]
  · simp only [step, h1, perform]; rw [h2]

/-- Where a POLL can go. -/
theorem poll_eq (s : State) : poll s =
    match decode (bufBytes (drain s)) with
    | .error .badChecksum => .next (dropFrame (drain s))
    | .error _ => .next (returnStatus .noFrame (drain s))
    | .ok i => if addressed i (drain s) = true then exec i (drain s) else .next (dropFrame (drain s)) := by
  unfold poll fetch
  simp only
  split <;> rename_i h <;> split at h <;> simp_all
  all_goals (try (split_ifs at h; all_goals simp_all))

theorem poll_of_error {s : State} {r : Reject} (h : decode (bufBytes (drain s)) = .error r) (hr : r ≠ .badChecksum) :
    poll s = .next (returnStatus .noFrame (drain s)) := by
  rw [poll_eq, h]; cases r <;> simp_all

theorem poll_of_badChecksum {s : State} (h : decode (bufBytes (drain s)) = .error .badChecksum) :
    poll s = .next (dropFrame (drain s)) := by
  rw [poll_eq, h]

theorem poll_of_ok {s : State} {i : Instr} (h : decode (bufBytes (drain s)) = .ok i) :
    poll s = if addressed i (drain s) = true then exec i (drain s) else .next (dropFrame (drain s)) := by
  rw [poll_eq, h]

/-- Every step: an event other than POLL, or a POLL that waits, drops, or runs an instruction. -/
theorem step_cases {s t : State} (h : step s = .next t) :
    (∃ e es, s.pending = e :: es ∧ e ≠ .poll ∧ perform e { s with pending := es } = .next t) ∨
    ∃ s0, PollNext s s0 ∧ (t = returnStatus .noFrame (drain s0) ∨ t = dropFrame (drain s0) ∨
      ∃ i, decode (bufBytes (drain s0)) = .ok i ∧ addressed i (drain s0) = true ∧ exec i (drain s0) = .next t) := by
  have key : ∀ s0, PollNext s s0 → poll s0 = .next t →
      (t = returnStatus .noFrame (drain s0) ∨ t = dropFrame (drain s0) ∨
        ∃ i, decode (bufBytes (drain s0)) = .ok i ∧ addressed i (drain s0) = true ∧ exec i (drain s0) = .next t) := by
    intro s0 _ hp
    cases hd : decode (bufBytes (drain s0)) with
    | error r =>
      by_cases hr : r = .badChecksum
      · subst hr; rw [poll_of_badChecksum hd] at hp; cases hp; exact .inr (.inl rfl)
      · rw [poll_of_error hd hr] at hp; cases hp; exact .inl rfl
    | ok i =>
      rw [poll_of_ok hd] at hp
      split_ifs at hp with ha
      · exact .inr (.inr ⟨i, rfl, ha, hp⟩)
      · cases hp; exact .inr (.inl rfl)
  cases hp : s.pending with
  | nil =>
    have hn : PollNext s s := .inl ⟨hp, rfl⟩
    rw [step_poll hn] at h
    exact .inr ⟨s, hn, key s hn h⟩
  | cons e es =>
    by_cases he : e = .poll
    · subst he
      have hn : PollNext s { s with pending := es } := .inr ⟨hp, rfl⟩
      rw [step_poll hn] at h
      exact .inr ⟨_, hn, key _ hn h⟩
    · refine .inl ⟨e, es, rfl, he, ?_⟩
      rwa [step, hp] at h

end Sys2Proof.Machine
end

