-- ==== Sys2Proof/Laws/Exec.lean ====
section
/-! SUPPORT. Every way an instruction can end in a next state: one inversion lemma for exec, from which the rules of the
whole machine follow. -/

namespace Sys2Proof.Machine

/-- `u` differs from `s` at most in cells a request may write, Coils and HoldingRegisters of the table (R65), and in the
draws made. -/
def CellsWrittenFrom (s u : State) : Prop :=
  u = { s with bits := u.bits, words := u.words, draws := u.draws } ∧
  (∀ h, readBit u h ≠ readBit s h → ∃ e ∈ s.tbl, e.kind = .coil ∧ e.ref = h) ∧
  (∀ h, readWord u h ≠ readWord s h → ∃ e ∈ s.tbl, e.kind = .holdingRegister ∧ e.ref = h) ∧
  (cellsWf false s.bits = true → cellsWf false u.bits = true) ∧
  (cellsWf 0x0000#16 s.words = true → cellsWf 0x0000#16 u.words = true)

theorem CellsWrittenFrom.refl (s : State) : CellsWrittenFrom s s :=
  ⟨rfl, fun _ h => absurd rfl h, fun _ h => absurd rfl h, id, id⟩

theorem CellsWrittenFrom.tbl {s u : State} (h : CellsWrittenFrom s u) : u.tbl = s.tbl := by rw [h.1]

/-- A boolean cell written by a request is a Coil's. -/
theorem CellsWrittenFrom.writeBit {s u : State} (hu : CellsWrittenFrom s u) {a : Nat} {h : Handle}
    (hr : resolve a .coil s = some h) (v : Bool) : CellsWrittenFrom s (writeBit h v u) := by
  refine ⟨by rw [hu.1]; rfl, fun j hj => ?_, hu.2.2.1, fun w => cellsWf_cellWrite (hu.2.2.2.1 w) h v, hu.2.2.2.2⟩
  by_cases hjh : j = h
  · subst hjh
    exact ⟨_, resolve_mem hr, rfl, rfl⟩
  · rw [readBit_writeBit, if_neg hjh] at hj
    exact hu.2.1 j hj

/-- A word cell written by a request is a HoldingRegister's. -/
theorem CellsWrittenFrom.writeWord {s u : State} (hu : CellsWrittenFrom s u) {a : Nat} {h : Handle}
    (hr : resolve a .holdingRegister s = some h) (v : Word) : CellsWrittenFrom s (writeWord h v u) := by
  refine ⟨by rw [hu.1]; rfl, hu.2.1, fun j hj => ?_, hu.2.2.2.1, fun w => cellsWf_cellWrite (hu.2.2.2.2 w) h v⟩
  by_cases hjh : j = h
  · subst hjh
    exact ⟨_, resolve_mem hr, rfl, rfl⟩
  · rw [readWord_writeWord, if_neg hjh] at hj
    exact hu.2.2.1 j hj

/-- A draw writes no cell. -/
theorem CellsWrittenFrom.draws {s u : State} (hu : CellsWrittenFrom s u) (n : Nat) :
    CellsWrittenFrom s { u with draws := n } := ⟨by rw [hu.1], hu.2.1, hu.2.2.1, hu.2.2.2.1, hu.2.2.2.2⟩

theorem CellsWrittenFrom.storeCoil {s u u' : State} (hu : CellsWrittenFrom s u) {a i : Nat} {f : List Byte}
    {h : Handle} (hr : resolve a .coil u = some h) (hs : storeCoil f i h u = .ok u') : CellsWrittenFrom s u' := by
  unfold Machine.storeCoil at hs
  split at hs
  · cases hs
  · rename_i b v hb
    have hv := (requestByte_frame hb).2.1
    cases hs
    rw [hv]
    rw [resolve_congr hu.tbl] at hr
    exact CellsWrittenFrom.writeBit (hu.draws _) hr _

theorem CellsWrittenFrom.storeRegister {s u u' : State} (hu : CellsWrittenFrom s u) {a i : Nat} {f : List Byte}
    {h : Handle} (hr : resolve a .holdingRegister u = some h) (hs : storeRegister f i h u = .ok u') :
    CellsWrittenFrom s u' := by
  unfold Machine.storeRegister at hs
  split at hs
  · cases hs
  · rename_i b v hb
    split at hs
    · cases hs
    · rename_i b2 w hb2
      have hv := (requestByte_frame hb).2.1
      have hw := (requestByte_frame hb2).2.1
      cases hs
      rw [hw, hv]
      rw [resolve_congr hu.tbl] at hr
      exact CellsWrittenFrom.writeWord (hu.draws _) hr _

/-- The three ends of a handler: ILLEGAL_FUNCTION (R134); an IllegalDataAddress reply (R232); a normal reply that is a
frame, begins with the request's address and function code, and is sent after the cells are written (R67, R200). -/
inductive HandlerEnd (i : Instr) (s : State) : State → Prop where
  | illegal (a fc : Byte) (hi : i = .illegalFunction a fc) :
      HandlerEnd i s (finish .exception (rxFlush (raise .illegalFunction fc s)))
  | missing (u : State) (hi : isRequest i = true) (hu : CellsWrittenFrom s u) :
      HandlerEnd i s (finish .exception (raise .illegalDataAddress (instrCode i) u))
  | replied (u : State) (f : List Byte) (hi : isRequest i = true) (hu : CellsWrittenFrom s u) (hf : FrameOk f)
      (hh : f.take 2 = [instrAddr i, instrCode i]) : HandlerEnd i s (finish .replied (txWrite f u))

theorem replyData_end {i : Instr} {s t : State} {d : List Byte} (hi : isRequest i = true)
    (h : replyData (instrAddr i) (instrCode i) d s = .next t) : HandlerEnd i s t := by
  rw [replyData_eq] at h
  split_ifs at h with hd
  cases h
  exact .replied s _ hi (.refl s) ⟨by simp, by simp [Config.txCap]; omega, crcOk_appendCrc _⟩ (by simp [appendCrc])

theorem readBits_end {i : Instr} {k : Kind} {start qty : Word} {s t : State} (hi : isRequest i = true)
    (h : readBits k (instrAddr i) (instrCode i) start qty s = .next t) : HandlerEnd i s t := by
  rcases readBits_cases k (instrAddr i) (instrCode i) start qty s with h1 | ⟨d, -, -, h1⟩ <;> rw [h1] at h
  · cases h; exact .missing s hi (.refl s)
  · exact replyData_end hi h

theorem readWords_end {i : Instr} {k : Kind} {start qty : Word} {s t : State} (hi : isRequest i = true)
    (h : readWords k (instrAddr i) (instrCode i) start qty s = .next t) : HandlerEnd i s t := by
  rcases readWords_cases k (instrAddr i) (instrCode i) start qty s with h1 | ⟨d, -, -, h1⟩ <;> rw [h1] at h
  · cases h; exact .missing s hi (.refl s)
  · exact replyData_end hi h

theorem replyMultiple_end {i : Instr} {s t : State} {f : List Byte} {w : WriteEnd} (hi : isRequest i = true)
    (hw : (∀ u, w = .done u → CellsWrittenFrom s u) ∧ (∀ u, w = .missing u → CellsWrittenFrom s u))
    (hf : ∃ a b c d, f.take 6 = [instrAddr i, instrCode i, a, b, c, d])
    (h : replyMultiple (instrCode i) f w = .next t) : HandlerEnd i s t := by
  obtain ⟨a, b, c, d, hf⟩ := hf
  cases w with
  | done u =>
    cases h
    exact .replied u _ hi (hw.1 u rfl) ⟨by simp [hf], by simp [hf, Config.txCap], crcOk_appendCrc _⟩
      (by simp [appendCrc, hf])
  | missing u => cases h; exact .missing u hi (hw.2 u rfl)
  | beyond r => cases h

/-- Every next state of every instruction is one of the three ends. -/
theorem exec_end {i : Instr} {s t : State} (h : exec i s = .next t) : HandlerEnd i s t := by
  cases i with
  | readCoils a b c => exact readBits_end rfl h
  | readDiscreteInputs a b c => exact readBits_end rfl h
  | readHoldingRegisters a b c => exact readWords_end rfl h
  | readInputRegisters a b c => exact readWords_end rfl h
  | writeSingleCoil a b c =>
    simp only [exec, execWriteSingleCoil] at h
    split at h
    · cases h; exact .missing s rfl (.refl s)
    · rename_i r hr
      cases h
      exact .replied _ _ rfl (CellsWrittenFrom.writeBit (.refl s) hr _)
        ⟨by simp [encode], by simp [encode, Config.txCap], by simp [encode, encodeFixed_eq]⟩ rfl
  | writeSingleRegister a b c =>
    simp only [exec, execWriteSingleRegister] at h
    split at h
    · cases h; exact .missing s rfl (.refl s)
    · rename_i r hr
      cases h
      exact .replied _ _ rfl (CellsWrittenFrom.writeWord (.refl s) hr _)
        ⟨by simp [encode], by simp [encode, Config.txCap], by simp [encode, encodeFixed_eq]⟩ rfl
  | writeMultipleCoils a b c d e =>
    exact replyMultiple_end rfl
      (writeEach_keeps (CellsWrittenFrom s) _ _ s (.refl s) fun _ _ _ _ _ _ hu hr hs => hu.storeCoil hr hs)
      ⟨_, _, _, _, encodeMultiple_take6 _ _ _ _ _ _⟩ h
  | writeMultipleRegisters a b c d e =>
    exact replyMultiple_end rfl
      (writeEach_keeps (CellsWrittenFrom s) _ _ s (.refl s) fun _ _ _ _ _ _ hu hr hs => hu.storeRegister hr hs)
      ⟨_, _, _, _, encodeMultiple_take6 _ _ _ _ _ _⟩ h
  | illegalFunction a fc => cases h; exact .illegal a fc rfl

end Sys2Proof.Machine
end

