-- ==== Sys2Proof/Laws/PerInstr.lean ====
section
/-! SUPPORT. Statements about every instruction as syntax, one lemma per constructor (LAWS.json names the families). -/

namespace Sys2Proof.Laws.FrameShape

open Machine

/-- The bytes of a well-formed instruction fit the buffer, begin with its address and function code, and for a request
end in the checksum of the bytes before (R80 to R82, R87). -/
def Statement (i : Instr) : Prop :=
  wellFormed i = true →
    2 ≤ (encode i).length ∧ (encode i).length ≤ Config.bufCap ∧ (encode i).take 2 = [instrAddr i, instrCode i] ∧
      (isRequest i = true → crcOk (encode i) = true)

/-- The 8-byte requests. -/
theorem fixed (i : Instr) (fc : Byte) (start qty : Word) (h : encode i = encodeFixed (instrAddr i) fc start qty)
    (hc : instrCode i = fc) : Statement i := fun _ => by
  rw [h, hc]
  exact ⟨by simp, by simp [Config.bufCap], rfl, fun _ => by rw [encodeFixed_eq]; exact crcOk_appendCrc _⟩

/-- The variable-length requests. -/
theorem multiple (i : Instr) (fc : Byte) (start qty : Word) (bc : Byte) (data : List Byte)
    (h : encode i = encodeMultiple (instrAddr i) fc start qty bc data) (hc : instrCode i = fc)
    (hw : wellFormed i = true → data.length + 9 ≤ Config.bufCap) : Statement i := fun hi => by
  rw [h, hc]
  refine ⟨by simp, by simpa using hw hi, ?_, fun _ => by rw [encodeMultiple_eq]; exact crcOk_appendCrc _⟩
  rw [encodeMultiple_eq]; rfl

theorem readCoils (addr : Byte) (start qty : Word) : Statement (.readCoils addr start qty) :=
  fixed _ 0x01#8 start qty rfl rfl

theorem readDiscreteInputs (addr : Byte) (start qty : Word) : Statement (.readDiscreteInputs addr start qty) :=
  fixed _ 0x02#8 start qty rfl rfl

theorem readHoldingRegisters (addr : Byte) (start qty : Word) : Statement (.readHoldingRegisters addr start qty) :=
  fixed _ 0x03#8 start qty rfl rfl

theorem readInputRegisters (addr : Byte) (start qty : Word) : Statement (.readInputRegisters addr start qty) :=
  fixed _ 0x04#8 start qty rfl rfl

theorem writeSingleCoil (addr : Byte) (start value : Word) : Statement (.writeSingleCoil addr start value) :=
  fixed _ 0x05#8 start value rfl rfl

theorem writeSingleRegister (addr : Byte) (start value : Word) : Statement (.writeSingleRegister addr start value) :=
  fixed _ 0x06#8 start value rfl rfl

theorem writeMultipleCoils (addr : Byte) (start qty : Word) (bc : Byte) (data : List Byte) :
    Statement (.writeMultipleCoils addr start qty bc data) :=
  multiple _ 0x0F#8 start qty bc data rfl rfl fun h => by
    simp only [wellFormed, wellFormedData, Bool.and_eq_true, decide_eq_true_eq] at h; omega

theorem writeMultipleRegisters (addr : Byte) (start qty : Word) (bc : Byte) (data : List Byte) :
    Statement (.writeMultipleRegisters addr start qty bc data) :=
  multiple _ 0x10#8 start qty bc data rfl rfl fun h => by
    simp only [wellFormed, wellFormedData, Bool.and_eq_true, decide_eq_true_eq] at h; omega

theorem illegalFunction (addr fc : Byte) : Statement (.illegalFunction addr fc) := fun _ =>
  ⟨by simp [encode], by simp [encode, Config.bufCap], rfl, fun h => by cases h⟩

end Sys2Proof.Laws.FrameShape
end

