-- ==== Sys2Proof/Tests/Slice0.lean ====
section
/-! SUPPORT. The model's own tests, with the spec's vectors (95_test_vectors.md) as expected results; and for each
statement of Obligations.lean that has hypotheses, a state and operands that meet them together. -/

namespace Sys2Proof.Tests

set_option Elab.async false

open Machine

/-! ## Ill-formed terms (30_encoding.md R82, R94, R96) -/

theorem test_wellFormed_refuses_short_data : wellFormed (.writeMultipleCoils 0x11#8 0#16 9#16 2#8 [0xFF#8]) = false := by
  decide +kernel

theorem test_wellFormed_refuses_long_data :
    wellFormed (.writeMultipleRegisters 0x11#8 0#16 1#16 2#8 [1#8, 2#8, 3#8]) = false := by decide +kernel

theorem test_wellFormed_refuses_frame_beyond_buffer :
    wellFormed (.writeMultipleRegisters 0x11#8 0#16 0#16 247#8 (List.replicate 247 0#8)) = false := by decide +kernel

theorem test_wellFormed_accepts_largest_frame :
    wellFormed (.writeMultipleRegisters 0x11#8 0#16 0#16 246#8 (List.replicate 246 0#8)) = true := by decide +kernel

theorem test_wellFormed_refuses_recognized_code : wellFormed (.illegalFunction 0x11#8 0x10#8) = false := by
  decide +kernel

/-! ## Decoding: words written out from the tables of 30_encoding.md, checksums from 95_test_vectors.md -/

/-- V-R1. -/
theorem test_decode_readCoils : decode [0x11#8, 0x01#8, 0x00#8, 0x00#8, 0x00#8, 0x0A#8, 0xBE#8, 0x9D#8] =
    .ok (.readCoils 0x11#8 0x0000#16 0x000A#16) := by decide +kernel

/-- V-R11. -/
theorem test_decode_readDiscreteInputs : decode [0x11#8, 0x02#8, 0x01#8, 0x00#8, 0x00#8, 0x03#8, 0x3B#8, 0x67#8] =
    .ok (.readDiscreteInputs 0x11#8 0x0100#16 0x0003#16) := by decide +kernel

/-- V-R20. -/
theorem test_decode_readHoldingRegisters : decode [0x11#8, 0x03#8, 0xFF#8, 0xFF#8, 0x00#8, 0x02#8, 0xC6#8, 0xBF#8] =
    .ok (.readHoldingRegisters 0x11#8 0xFFFF#16 0x0002#16) := by decide +kernel

/-- V-R17. -/
theorem test_decode_readInputRegisters : decode [0x11#8, 0x04#8, 0x00#8, 0x30#8, 0xFF#8, 0xFF#8, 0xF3#8, 0x25#8] =
    .ok (.readInputRegisters 0x11#8 0x0030#16 0xFFFF#16) := by decide +kernel

/-- V-W1. -/
theorem test_decode_writeSingleCoil : decode [0x11#8, 0x05#8, 0x00#8, 0x05#8, 0xFF#8, 0x00#8, 0x9E#8, 0xAB#8] =
    .ok (.writeSingleCoil 0x11#8 0x0005#16 0xFF00#16) := by decide +kernel

/-- V-W8. -/
theorem test_decode_writeSingleRegister : decode [0x11#8, 0x06#8, 0x00#8, 0x01#8, 0x00#8, 0x03#8, 0x9A#8, 0x9B#8] =
    .ok (.writeSingleRegister 0x11#8 0x0001#16 0x0003#16) := by decide +kernel

/-- V-W15. -/
theorem test_decode_writeMultipleCoils :
    decode [0x11#8, 0x0F#8, 0x00#8, 0x13#8, 0x00#8, 0x0A#8, 0x02#8, 0x00#8, 0xFE#8, 0xAB#8, 0xDB#8] =
      .ok (.writeMultipleCoils 0x11#8 0x0013#16 0x000A#16 0x02#8 [0x00#8, 0xFE#8]) := by decide +kernel

/-- V-W23. -/
theorem test_decode_writeMultipleRegisters :
    decode [0x11#8, 0x10#8, 0x00#8, 0x00#8, 0x00#8, 0x01#8, 0x04#8, 0x12#8, 0x34#8, 0x56#8, 0x78#8, 0xDC#8, 0x68#8] =
      .ok (.writeMultipleRegisters 0x11#8 0x0000#16 0x0001#16 0x04#8 [0x12#8, 0x34#8, 0x56#8, 0x78#8]) := by
  decide +kernel

/-- V-A11: bit 7 already set. -/
theorem test_decode_illegalFunction : decode [0x11#8, 0x83#8] = .ok (.illegalFunction 0x11#8 0x83#8) := by
  decide +kernel

/-- V-V4: the checksum's bytes swapped. -/
theorem test_decode_refuses_swapped_checksum :
    decode [0x11#8, 0x03#8, 0x00#8, 0x00#8, 0x00#8, 0x02#8, 0x9B#8, 0xC6#8] = .error .badChecksum := by decide +kernel

/-- V-A9: a byte count that predicts 9 bytes for 13. -/
theorem test_decode_refuses_overshoot :
    decode [0x11#8, 0x10#8, 0x00#8, 0x00#8, 0x00#8, 0x02#8, 0x00#8, 0xDE#8, 0xAD#8, 0xBE#8, 0xEF#8, 0x3C#8, 0x8A#8] =
      .error .wrongLength := by decide +kernel

/-- R97 and program P2: the pseudo-instruction's bytes. -/
theorem test_writeRegisters_encoding :
    encode (writeRegisters 0x0A#8 0x0010#16 [0x0100#16, 0x0200#16, 0x0300#16]) =
      [0x0A#8, 0x10#8, 0x00#8, 0x10#8, 0x00#8, 0x03#8, 0x06#8, 0x01#8, 0x00#8, 0x02#8, 0x00#8, 0x03#8, 0x00#8, 0xFD#8,
        0x07#8] := by decide +kernel

/-! ## Checksum and codec -/

/-- V-C9. -/
theorem test_crc16_123456789 :
    crc16 [0x31#8, 0x32#8, 0x33#8, 0x34#8, 0x35#8, 0x36#8, 0x37#8, 0x38#8, 0x39#8] = 0x4B37#16 := by decide +kernel

/-- V-C23. -/
theorem test_packBits : packBits [true, false, true, false, true, false, true, false, true, true] = [0x55#8, 0x03#8] := by
  decide +kernel

/-- V-C25. -/
theorem test_bitAt : (List.range 10).map (bitAt [0xCD#8, 0x01#8]) =
    [true, false, true, true, false, false, true, true, true, false] := by decide +kernel

/-! ## One POLL on a request -/

/-- An engine after INIT(0x11) with this table and these cells. -/
def engine (tbl : List Register) (bits : List (Nat × Bool)) (words : List (Nat × Word)) : State :=
  { State.reset with slaveAddr := 0x11#8, tbl := tbl, bits := bits, words := words }

/-- These bytes have arrived and a POLL comes next. -/
def received (f : List Byte) (s : State) : State := { s with rxq := f, pending := [.poll] }

/-- The last frame sent. -/
def reply : Outcome → Option (List Byte)
  | .next t => t.txlog.getLast?
  | _ => none

/-- The status. -/
def status : Outcome → Option OpResult
  | .next t => some t.result
  | _ => none

/-- The outcome is a next state that `p` accepts. -/
def ends (p : State → Bool) : Outcome → Bool
  | .next t => p t
  | _ => false

theorem next_of {P : State → Prop} [DecidablePred P] {o : Outcome} (h : ends (fun t => decide (P t)) o = true) :
    ∃ t, o = .next t ∧ P t := by
  cases o with
  | next t => exact ⟨t, rfl, of_decide_eq_true h⟩
  | _ => cases h

theorem answers {o : Outcome} (h : ends (fun _ => true) o = true) : ∃ t, o = .next t := by
  cases o with
  | next t => exact ⟨t, rfl⟩
  | _ => cases h

/-- Boolean cells. -/
def bitsAfter (hs : List Handle) : Outcome → Option (List Bool)
  | .next t => some (hs.map (readBit t))
  | _ => none

/-- Word cells. -/
def wordsAfter (hs : List Handle) : Outcome → Option (List Word)
  | .next t => some (hs.map (readWord t))
  | _ => none

/-- `n` registers of one kind from an address on, on the cells from a handle on. -/
def bank (k : Kind) (start : Nat) (h n : Nat) : List Register :=
  (List.range n).map fun i => ⟨BitVec.ofNat 16 (start + i), k, h + i⟩

/-- The table of V-R1 to V-R17. -/
def readDevice : State :=
  engine (bank .coil 0 0 10 ++ bank .discreteInput 0x100 10 3 ++ bank .inputRegister 0x30 0 2)
    [(0, true), (2, true), (4, true), (6, true), (8, true), (9, true), (10, true), (11, true)]
    [(0, 0x0102#16), (1, 0xFFFE#16)]

/-- V-R7. -/
theorem test_readCoils_bit_order :
    reply (step (received [0x11#8, 0x01#8, 0x00#8, 0x02#8, 0x00#8, 0x08#8, 0x9E#8, 0x9C#8] readDevice)) =
      some [0x11#8, 0x01#8, 0x01#8, 0xD5#8, 0x94#8, 0xD7#8] := by decide +kernel

/-- V-R8. -/
theorem test_readCoils_absent :
    reply (step (received [0x11#8, 0x01#8, 0x00#8, 0x00#8, 0x00#8, 0x0B#8, 0x7F#8, 0x5D#8] readDevice)) =
      some [0x11#8, 0x81#8, 0x02#8, 0xC0#8, 0x54#8] := by decide +kernel

/-- V-R11. -/
theorem test_readDiscreteInputs :
    reply (step (received [0x11#8, 0x02#8, 0x01#8, 0x00#8, 0x00#8, 0x03#8, 0x3B#8, 0x67#8] readDevice)) =
      some [0x11#8, 0x02#8, 0x01#8, 0x03#8, 0xE5#8, 0x49#8] := by decide +kernel

/-- V-R10. -/
theorem test_readDiscreteInputs_on_coil :
    reply (step (received [0x11#8, 0x02#8, 0x00#8, 0x00#8, 0x00#8, 0x01#8, 0xBB#8, 0x5A#8] readDevice)) =
      some [0x11#8, 0x82#8, 0x02#8, 0xC0#8, 0xA4#8] := by decide +kernel

/-- V-R13. -/
theorem test_readInputRegisters :
    reply (step (received [0x11#8, 0x04#8, 0x00#8, 0x30#8, 0x00#8, 0x02#8, 0x73#8, 0x54#8] readDevice)) =
      some [0x11#8, 0x04#8, 0x04#8, 0x01#8, 0x02#8, 0xFF#8, 0xFE#8, 0x8A#8, 0x09#8] := by decide +kernel

/-- V-R17: 65535 registers, the third absent. -/
theorem test_readInputRegisters_65535 :
    reply (step (received [0x11#8, 0x04#8, 0x00#8, 0x30#8, 0xFF#8, 0xFF#8, 0xF3#8, 0x25#8] readDevice)) =
      some [0x11#8, 0x84#8, 0x02#8, 0xC3#8, 0x04#8] := by decide +kernel

/-- The table of V-R19 to V-R22, with the register at 0xFFFF on cell 4. -/
def holdingDevice : State :=
  engine [⟨0#16, .holdingRegister, 0⟩, ⟨1#16, .holdingRegister, 1⟩, ⟨3#16, .holdingRegister, 3⟩,
    ⟨0xFFFF#16, .holdingRegister, 4⟩] [] [(0, 0x1234#16), (1, 0xABCD#16), (3, 0x0007#16), (4, 0xBEEF#16)]

/-- V-R21. -/
theorem test_readHoldingRegisters :
    reply (step (received [0x11#8, 0x03#8, 0x00#8, 0x00#8, 0x00#8, 0x02#8, 0xC6#8, 0x9B#8] holdingDevice)) =
      some [0x11#8, 0x03#8, 0x04#8, 0x12#8, 0x34#8, 0xAB#8, 0xCD#8, 0x11#8, 0xE1#8] := by decide +kernel

/-- V-R20: no wrap beyond 0xFFFF, although address 0 is registered. -/
theorem test_readHoldingRegisters_no_wrap :
    reply (step (received [0x11#8, 0x03#8, 0xFF#8, 0xFF#8, 0x00#8, 0x02#8, 0xC6#8, 0xBF#8] holdingDevice)) =
      some [0x11#8, 0x83#8, 0x02#8, 0xC1#8, 0x34#8] := by decide +kernel

/-- The table of V-W1 to V-W11. -/
def writeDevice : State :=
  engine [⟨5#16, .coil, 0⟩, ⟨1#16, .holdingRegister, 0⟩, ⟨6#16, .discreteInput, 1⟩, ⟨2#16, .inputRegister, 1⟩] []
    [(1, 0x0009#16)]

/-- V-W3: the value 0x0001 writes true; the reply is the echo. -/
theorem test_writeSingleCoil :
    bitsAfter [0, 1] (step (received [0x11#8, 0x05#8, 0x00#8, 0x05#8, 0x00#8, 0x01#8, 0x1E#8, 0x9B#8] writeDevice)) =
      some [true, false] ∧
    reply (step (received [0x11#8, 0x05#8, 0x00#8, 0x05#8, 0x00#8, 0x01#8, 0x1E#8, 0x9B#8] writeDevice)) =
      some [0x11#8, 0x05#8, 0x00#8, 0x05#8, 0x00#8, 0x01#8, 0x1E#8, 0x9B#8] := by decide +kernel

/-- V-W5. -/
theorem test_writeSingleCoil_on_discrete_input :
    reply (step (received [0x11#8, 0x05#8, 0x00#8, 0x06#8, 0xFF#8, 0x00#8, 0x6E#8, 0xAB#8] writeDevice)) =
      some [0x11#8, 0x85#8, 0x02#8, 0xC2#8, 0x94#8] := by decide +kernel

/-- V-W8. -/
theorem test_writeSingleRegister :
    wordsAfter [0, 1] (step (received [0x11#8, 0x06#8, 0x00#8, 0x01#8, 0x00#8, 0x03#8, 0x9A#8, 0x9B#8] writeDevice)) =
      some [0x0003#16, 0x0009#16] := by decide +kernel

/-- V-W10. -/
theorem test_writeSingleRegister_on_input_register :
    wordsAfter [1] (step (received [0x11#8, 0x06#8, 0x00#8, 0x02#8, 0x00#8, 0x05#8, 0xEA#8, 0x99#8] writeDevice)) =
      some [0x0009#16] ∧
    reply (step (received [0x11#8, 0x06#8, 0x00#8, 0x02#8, 0x00#8, 0x05#8, 0xEA#8, 0x99#8] writeDevice)) =
      some [0x11#8, 0x86#8, 0x02#8, 0xC2#8, 0x64#8] := by decide +kernel

/-- The table of V-W13 to V-W18: ten coils from 0x0013 on. -/
def coilDevice : State := engine (bank .coil 0x13 0 10) [] []

/-- V-W13. -/
theorem test_writeMultipleCoils :
    bitsAfter (List.range 10) (step (received
      [0x11#8, 0x0F#8, 0x00#8, 0x13#8, 0x00#8, 0x0A#8, 0x02#8, 0xCD#8, 0x01#8, 0xBF#8, 0x0B#8] coilDevice)) =
        some [true, false, true, true, false, false, true, true, true, false] ∧
    reply (step (received
      [0x11#8, 0x0F#8, 0x00#8, 0x13#8, 0x00#8, 0x0A#8, 0x02#8, 0xCD#8, 0x01#8, 0xBF#8, 0x0B#8] coilDevice)) =
        some [0x11#8, 0x0F#8, 0x00#8, 0x13#8, 0x00#8, 0x0A#8, 0x26#8, 0x99#8] := by decide +kernel

/-- V-W18: coils 8 and 9 take bits of the checksum's low byte 0x9B. -/
theorem test_writeMultipleCoils_checksum_bits :
    bitsAfter (List.range 10) (step (received
      [0x11#8, 0x0F#8, 0x00#8, 0x13#8, 0x00#8, 0x0A#8, 0x01#8, 0xFF#8, 0x9B#8, 0xDA#8] coilDevice)) =
        some (List.replicate 10 true) := by decide +kernel

/-- The table of V-W19 to V-W25. -/
def registerDevice : State :=
  engine [⟨0#16, .holdingRegister, 0⟩, ⟨1#16, .holdingRegister, 1⟩, ⟨3#16, .holdingRegister, 3⟩] [] []

/-- V-W20: no rollback. -/
theorem test_writeMultipleRegisters_not_rolled_back :
    wordsAfter [0, 1, 3] (step (received [0x11#8, 0x10#8, 0x00#8, 0x00#8, 0x00#8, 0x03#8, 0x06#8, 0x00#8, 0x01#8, 0x00#8,
      0x02#8, 0x00#8, 0x03#8, 0x04#8, 0x11#8] registerDevice)) = some [0x0001#16, 0x0002#16, 0x0000#16] ∧
    reply (step (received [0x11#8, 0x10#8, 0x00#8, 0x00#8, 0x00#8, 0x03#8, 0x06#8, 0x00#8, 0x01#8, 0x00#8,
      0x02#8, 0x00#8, 0x03#8, 0x04#8, 0x11#8] registerDevice)) = some [0x11#8, 0x90#8, 0x02#8, 0xCC#8, 0x04#8] := by
  decide +kernel

/-- V-W22: register 1 takes the checksum's bytes. -/
theorem test_writeMultipleRegisters_checksum_word :
    wordsAfter [0, 1] (step (received
      [0x11#8, 0x10#8, 0x00#8, 0x00#8, 0x00#8, 0x02#8, 0x02#8, 0xAA#8, 0x55#8, 0xD5#8, 0x4B#8] registerDevice)) =
        some [0xAA55#16, 0xD54B#16] ∧
    reply (step (received
      [0x11#8, 0x10#8, 0x00#8, 0x00#8, 0x00#8, 0x02#8, 0x02#8, 0xAA#8, 0x55#8, 0xD5#8, 0x4B#8] registerDevice)) =
        some [0x11#8, 0x10#8, 0x00#8, 0x00#8, 0x00#8, 0x02#8, 0x43#8, 0x58#8] := by decide +kernel

/-- S6. -/
theorem test_illegalFunction :
    reply (step (received [0x11#8, 0x63#8, 0x01#8, 0x02#8, 0x03#8] registerDevice)) =
      some [0x11#8, 0xE3#8, 0x01#8, 0xA9#8, 0x35#8] := by decide +kernel

/-- V-A8: for another slave, answered with this slave's address. -/
theorem test_illegalFunction_for_another_slave :
    reply (step (received [0x22#8, 0x2B#8, 0x0E#8, 0x01#8, 0x00#8, 0x70#8, 0x77#8] registerDevice)) =
      some [0x11#8, 0xAB#8, 0x01#8, 0x9F#8, 0x35#8] := by decide +kernel

/-- V-V1 and V-V2: dropped, nothing sent. -/
theorem test_drops :
    status (step (received [0x12#8, 0x03#8, 0x00#8, 0x00#8, 0x00#8, 0x02#8, 0xC6#8, 0xA8#8] holdingDevice)) =
      some (.poll .dropped) ∧
    status (step (received [0x11#8, 0x03#8, 0x00#8, 0x01#8, 0x00#8, 0x02#8, 0xC6#8, 0x9B#8] holdingDevice)) =
      some (.poll .dropped) ∧
    reply (step (received [0x11#8, 0x03#8, 0x00#8, 0x01#8, 0x00#8, 0x02#8, 0xC6#8, 0x9B#8] holdingDevice)) = none := by
  decide +kernel

/-- V-T1: the same address is refused whatever the kind. -/
theorem test_insert_duplicate :
    status (step { holdingDevice with pending := [.insert 1#16 .coil 7] }) = some (.insert false) ∧
    status (step { holdingDevice with pending := [.insert 2#16 .coil 7] }) = some (.insert true) := by decide +kernel

/-! ## Witnesses: the hypotheses of the statements can be met -/

/-- Witness for DecodeOfEncode: both sides of the condition on ILLEGAL_FUNCTION, and the longest frame. -/
theorem witness_DecodeOfEncode : wellFormed (.illegalFunction 0x11#8 0x00#8) = true ∧
    wellFormed (.writeMultipleCoils 0x11#8 0#16 0xFFFF#16 246#8 (List.replicate 246 0#8)) = true := by decide +kernel

/-- Witness for EncodeOfDecode: a request and a byte sequence that is none. -/
theorem witness_EncodeOfDecode :
    (decode (encode (.writeMultipleCoils 0x11#8 0#16 9#16 1#8 [0xFF#8])) =
      .ok (.writeMultipleCoils 0x11#8 0#16 9#16 1#8 [0xFF#8]) ∧
      (encode (.writeMultipleCoils 0x11#8 0#16 9#16 1#8 [0xFF#8])).length ≤ Config.bufCap) ∧
    decode [0x11#8, 0x63#8, 0x01#8] = .ok (.illegalFunction 0x11#8 0x63#8) := by decide +kernel

/-- Witness for DecodeRejectsByName: each of the three names. -/
theorem witness_DecodeRejectsByName :
    decode [0x11#8] = .error .tooShort ∧ decode [0x11#8, 0x01#8] = .error .wrongLength ∧
    decode [0x11#8, 0x10#8, 0#8, 0#8, 0#8, 1#8] = .error .wrongLength ∧
    decode [0x11#8, 0x10#8, 0#8, 0#8, 0#8, 0#8, 0#8, 0#8, 0#8] = .error .badChecksum := by decide +kernel

/-- Witness for ChecksumSeesOneChangedByte (S1: the last byte 0x0A changed to 0x0B gives 0x0D04). -/
theorem witness_ChecksumSeesOneChangedByte : (0x0A#8 : Byte) ≠ 0x0B#8 ∧
    crc16 ([0x01#8, 0x03#8, 0x00#8, 0x00#8, 0x00#8] ++ 0x0B#8 :: []) = 0x0D04#16 := by decide +kernel

/-- Witness for CheckerAcceptsWhatGeneratorMakes: the shortest sequence, which is not its own checksum, and a frame. -/
theorem witness_CheckerAcceptsWhatGeneratorMakes : crcOk [0xFF#8, 0xFE#8] = false ∧ crcOk [0xFF#8, 0xFF#8] = true ∧
    crcOk [0x11#8, 0x03#8, 0x00#8, 0x00#8, 0x00#8, 0x02#8, 0xC6#8, 0x9B#8] = true := by decide +kernel

/-- Witness for PackedBitsStandWhereTheRuleSays: nine booleans, bit 8 used and bit 9 unused (V-C22). -/
theorem witness_PackedBitsStandWhereTheRuleSays : packBits (List.replicate 9 true) = [0xFF#8, 0x01#8] := by
  decide +kernel

/-- Witness for ResolveFindsTheRegisteredCell: a table with the last address, and an address above it. -/
theorem witness_ResolveFindsTheRegisteredCell : TableOk holdingDevice ∧
    resolve 0xFFFF .holdingRegister holdingDevice = some 4 ∧ resolve 0x10000 .holdingRegister holdingDevice = none := by
  decide +kernel

/-- Witness for InsertAppendsOrChangesNothing: free and new; full; a duplicate. -/
theorem witness_InsertAppendsOrChangesNothing :
    ((engine [] [] []).tbl.length < (engine [] [] []).tblCap) ∧
    (∀ e ∈ holdingDevice.tbl, e.addr ≠ 2#16) ∧ (∃ e ∈ holdingDevice.tbl, e.addr = 3#16) ∧
    ({ holdingDevice with tblCap := 4 } : State).tblCap ≤ holdingDevice.tbl.length := by decide +kernel

/-- Witness for InsertedRegisterIsRetrievable: accepted; a duplicate; a full table. -/
theorem witness_InsertedRegisterIsRetrievable :
    (∃ t, step { holdingDevice with pending := [.insert 2#16 .coil 7] } = .next t ∧ t.result = .insert true) ∧
    (∃ t, step { holdingDevice with pending := [.insert 3#16 .coil 7] } = .next t ∧ t.result = .insert false) ∧
    ({ holdingDevice with tblCap := 4 } : State).tblCap ≤ holdingDevice.tbl.length :=
  ⟨next_of (by decide +kernel), next_of (by decide +kernel), by decide⟩

/-- Witness for OnlyResetRemovesTableEntries: an INSERT and a POLL. -/
theorem witness_OnlyResetRemovesTableEntries :
    (∃ t, step { holdingDevice with pending := [.insert 2#16 .coil 7] } = .next t ∧ t.tbl.length = 5) ∧
    (∃ t, step holdingDevice = .next t ∧ t.tbl = holdingDevice.tbl) ∧ (∀ es, holdingDevice.pending ≠ .reset :: es) :=
  ⟨next_of (by decide +kernel), next_of (by decide +kernel), fun es h => by cases h⟩

/-- A read request for registers 0 and 1 of `holdingDevice` in the queue, V-R21. -/
def readRequest : List Byte := [0x11#8, 0x03#8, 0x00#8, 0x00#8, 0x00#8, 0x02#8, 0xC6#8, 0x9B#8]

/-- `s` when its POLL starts. -/
def started (s : State) : State := { s with pending := [] }

/-- Both clauses of PollNext: a POLL that the host calls, and one after the last event. -/
theorem witness_PollNext : PollNext (received readRequest holdingDevice) (started (received readRequest holdingDevice)) ∧
    PollNext holdingDevice holdingDevice := by decide +kernel

/-- Witness for StepRunsTheDecodedInstruction. -/
theorem witness_StepRunsTheDecodedInstruction :
    PollNext (received readRequest holdingDevice) (started (received readRequest holdingDevice)) ∧
    decode (bufBytes (drain (started (received readRequest holdingDevice)))) =
      .ok (.readHoldingRegisters 0x11#8 0#16 2#16) ∧
    instrAddr (.readHoldingRegisters 0x11#8 0#16 2#16) = (started (received readRequest holdingDevice)).slaveAddr := by
  decide +kernel

/-- Witness for TooShortBufferWaits: one byte, V-A2. -/
theorem witness_TooShortBufferWaits :
    PollNext (received [0x11#8] holdingDevice) (started (received [0x11#8] holdingDevice)) ∧
    (drain (started (received [0x11#8] holdingDevice))).len < 2 := by decide +kernel

/-- Witness for IncompleteFrameWaits: too short and too long, both formats; a byte count not yet received. -/
theorem witness_IncompleteFrameWaits :
    Incomplete (drain (received (readRequest.take 7) holdingDevice)) ∧
    Incomplete (drain (received (readRequest ++ [0#8]) holdingDevice)) ∧
    Incomplete (drain (received [0x11#8, 0x10#8, 0#8, 0#8, 0#8, 1#8] holdingDevice)) ∧
    Incomplete (drain (received [0x11#8, 0x0F#8, 0#8, 0#8, 0#8, 1#8, 1#8, 0#8, 0#8] holdingDevice)) ∧
    PollNext (received (readRequest.take 7) holdingDevice) (started (received (readRequest.take 7) holdingDevice)) := by
  decide +kernel

/-- Witness for ForeignAddressIsDropped: V-V1. -/
theorem witness_ForeignAddressIsDropped :
    let s := received [0x12#8, 0x03#8, 0x00#8, 0x00#8, 0x00#8, 0x02#8, 0xC6#8, 0xA8#8] holdingDevice
    PollNext s (started s) ∧ Complete (drain (started s)) ∧ bufByte (drain (started s)) 0 ≠ (started s).slaveAddr := by
  decide +kernel

/-- Witness for WrongChecksumIsDropped: V-V2, and a variable-length frame of 9 bytes. -/
theorem witness_WrongChecksumIsDropped :
    (let s := received [0x11#8, 0x03#8, 0x00#8, 0x01#8, 0x00#8, 0x02#8, 0xC6#8, 0x9B#8] holdingDevice
     PollNext s (started s) ∧ Complete (drain (started s)) ∧ bufByte (drain (started s)) 0 = (started s).slaveAddr ∧
       crcOk (bufBytes (drain (started s))) = false) ∧
    (let s := received [0x11#8, 0x10#8, 0#8, 0#8, 0#8, 0#8, 0#8, 0#8, 0#8] holdingDevice
     Complete (drain (started s)) ∧ crcOk (bufBytes (drain (started s))) = false) := by decide +kernel

/-- Witness for UnrecognizedCodeIsAnswered: two bytes with code 0x00, and code 0x07 next to the recognized ones. -/
theorem witness_UnrecognizedCodeIsAnswered :
    (let s := received [0x22#8, 0x00#8] holdingDevice
     PollNext s (started s) ∧ 2 ≤ (drain (started s)).len ∧ ¬ FixedCode (bufByte (drain (started s)) 1) ∧
       ¬ MultipleCode (bufByte (drain (started s)) 1)) ∧
    (¬ FixedCode 0x07#8 ∧ ¬ MultipleCode 0x07#8) := by decide +kernel

/-- Witness for FragmentedRequestRuns: V-A5, a request cut after its byte count. -/
theorem witness_FragmentedRequestRuns :
    let i : Instr := .writeMultipleRegisters 0x11#8 0#16 2#16 4#8 [0xDE#8, 0xAD#8, 0xBE#8, 0xEF#8]
    let s : State := { registerDevice with
      rxq := [0x11#8, 0x10#8, 0#8, 0#8, 0#8, 2#8, 4#8],
      pending := [.poll, .arrive [0xDE#8, 0xAD#8, 0xBE#8, 0xEF#8, 0x3C#8, 0x8A#8], .poll] }
    wellFormed i = true ∧ isRequest i = true ∧ instrAddr i = s.slaveAddr ∧
      encode i = s.rxq ++ [0xDE#8, 0xAD#8, 0xBE#8, 0xEF#8, 0x3C#8, 0x8A#8] ∧ s.len = 0 := by decide +kernel

/-- Witness for ReadCoilsReplies: ten coils (V-R1), and none (V-R2). -/
theorem witness_ReadCoilsReplies : ResolvesTo readDevice .coil 0#16 (10#16 : Word).toNat id ∧
    ((10#16 : Word).toNat + 7) / 8 + 5 ≤ 255 ∧ ResolvesTo readDevice .coil 0#16 (0#16 : Word).toNat id := by
  decide +kernel

/-- Witness for ReadDiscreteInputsReplies: V-R11. -/
theorem witness_ReadDiscreteInputsReplies :
    ResolvesTo readDevice .discreteInput 0x100#16 (3#16 : Word).toNat (fun i => 10 + i) ∧
    ((3#16 : Word).toNat + 7) / 8 + 5 ≤ 255 := by decide +kernel

/-- Witness for ReadHoldingRegistersReplies: V-R21, and the last address (V-R19). -/
theorem witness_ReadHoldingRegistersReplies :
    (ResolvesTo holdingDevice .holdingRegister 0#16 (2#16 : Word).toNat id ∧ 2 * (2#16 : Word).toNat + 5 ≤ 255) ∧
    ResolvesTo holdingDevice .holdingRegister 0xFFFF#16 (1#16 : Word).toNat (fun _ => 4) := by decide +kernel

/-- Witness for ReadInputRegistersReplies: V-R13. -/
theorem witness_ReadInputRegistersReplies : ResolvesTo readDevice .inputRegister 0x30#16 (2#16 : Word).toNat id ∧
    2 * (2#16 : Word).toNat + 5 ≤ 255 := by decide +kernel

/-- Witness for ReadOfMissingRegisterRaises: V-R8, a wrong kind, an address above 0xFFFF (V-R20), V-R16. -/
theorem witness_ReadOfMissingRegisterRaises :
    (10 < (11#16 : Word).toNat ∧ FailsFirstAt readDevice .coil 0#16 10) ∧
    (0 < (1#16 : Word).toNat ∧ FailsFirstAt readDevice .discreteInput 0#16 0) ∧
    (1 < (2#16 : Word).toNat ∧ FailsFirstAt holdingDevice .holdingRegister 0xFFFF#16 1) ∧
    (2 < (3#16 : Word).toNat ∧ FailsFirstAt readDevice .inputRegister 0x30#16 2) := by decide +kernel

/-- A bank of registers from address 0 on resolves, whatever its size. -/
theorem bank_resolves (k : Kind) (n : Nat) (hn : n ≤ 0x10000) (s : State) (h : s.tbl = bank k 0 0 n) :
    ResolvesTo s k 0#16 n id := by
  have hnd : (s.tbl.map Register.addr).Nodup := by
    rw [h, bank, List.map_map]
    refine (List.nodup_map_iff_inj_on List.nodup_range).mpr fun a ha b hb hab => ?_
    simp only [List.mem_range] at ha hb
    have := congrArg BitVec.toNat hab
    simp at this
    omega
  intro i hi
  have hm : (⟨BitVec.ofNat 16 i, k, i⟩ : Register) ∈ s.tbl := by
    rw [h, bank, List.mem_map]
    exact ⟨i, by simpa using hi, by simp⟩
  have := lookup_of_mem hnd hm
  rw [resolve_eq_some_iff]
  simpa using ⟨by omega, this⟩

/-- The same for the engine that holds such a bank. -/
theorem engine_bank_resolves (k : Kind) (n : Nat) (hn : n ≤ 0x10000) :
    ResolvesTo (engine (bank k 0 0 n) [] []) k 0#16 n id := bank_resolves k n hn _ rfl

/-- Witness for OverlongReadReplyIsRefused: the smallest numbers whose reply is too long, 2001 and 126. -/
theorem witness_OverlongReadReplyIsRefused :
    (255 < ((2001#16 : Word).toNat + 7) / 8 + 5 ∧
      ResolvesTo (engine (bank .coil 0 0 (2001#16 : Word).toNat) [] []) .coil 0#16 (2001#16 : Word).toNat
        id ∧
      ResolvesTo (engine (bank .discreteInput 0 0 (2001#16 : Word).toNat) [] []) .discreteInput 0#16 (2001#16 : Word).toNat
        id) ∧
    (255 < 2 * (126#16 : Word).toNat + 5 ∧
      ResolvesTo (engine (bank .holdingRegister 0 0 (126#16 : Word).toNat) [] []) .holdingRegister 0#16 (126#16 : Word).toNat
        id ∧
      ResolvesTo (engine (bank .inputRegister 0 0 (126#16 : Word).toNat) [] []) .inputRegister 0#16 (126#16 : Word).toNat
        id) :=
  ⟨⟨by decide, engine_bank_resolves _ _ (by decide), engine_bank_resolves _ _ (by decide)⟩,
    by decide, engine_bank_resolves _ _ (by decide), engine_bank_resolves _ _ (by decide)⟩

/-- Witness for ReadsAreRepeatable and ReadHandlerFrame. -/
theorem witness_ReadsAreRepeatable : ∃ t, exec (.readHoldingRegisters 0x11#8 0#16 2#16) holdingDevice = .next t :=
  answers (by decide +kernel)

/-- Witness for WriteSingleCoilWritesAndEchoes and WriteSingleRegisterWritesAndEchoes, and for the clauses of
SingleWriteToMissingRegisterRaises: absent, and a read-only kind (V-W5, V-W10). -/
theorem witness_single_writes :
    resolve (5#16 : Word).toNat .coil writeDevice = some 0 ∧
    resolve (1#16 : Word).toNat .holdingRegister writeDevice = some 0 ∧
    resolve (6#16 : Word).toNat .coil writeDevice = none ∧ resolve (7#16 : Word).toNat .coil writeDevice = none ∧
    resolve (2#16 : Word).toNat .holdingRegister writeDevice = none := by decide +kernel

/-- Witness for WriteMultipleCoilsWritesEachCoil: V-W13. -/
theorem witness_WriteMultipleCoilsWritesEachCoil : ResolvesTo coilDevice .coil 0x13#16 (10#16 : Word).toNat id ∧
    (∀ i, i < (10#16 : Word).toNat → 7 + i / 8 ≤ 254) ∧
    (∀ i, i < (10#16 : Word).toNat →
      7 + i / 8 < (encode (.writeMultipleCoils 0x11#8 0x13#16 10#16 2#8 [0xCD#8, 1#8])).length) := by decide +kernel

/-- Witness for WriteMultipleRegistersWritesEachRegister: V-W19, and V-W25, where register 1 takes two draws. -/
theorem witness_WriteMultipleRegistersWritesEachRegister :
    ResolvesTo registerDevice .holdingRegister 0#16 (2#16 : Word).toNat id ∧
    (∀ i, i < (2#16 : Word).toNat → 8 + 2 * i ≤ 254) ∧
    (∀ i, i < (2#16 : Word).toNat →
      8 + 2 * i < (encode (.writeMultipleRegisters 0x11#8 0#16 2#16 4#8 [0xDE#8, 0xAD#8, 0xBE#8, 0xEF#8])).length) ∧
    ¬ 8 + 2 * 1 < (encode (.writeMultipleRegisters 0x11#8 0#16 2#16 0#8 [])).length := by decide +kernel

/-- Two entries on one cell (V-W27): the hypothesis on later indices holds for the larger index only. -/
theorem witness_shared_cell :
    let s := engine [⟨0#16, .holdingRegister, 0⟩, ⟨1#16, .holdingRegister, 0⟩] [] []
    ResolvesTo s .holdingRegister 0#16 2 (fun _ => 0) ∧
    wordsAfter [0] (step (received [0x11#8, 0x10#8, 0#8, 0#8, 0#8, 2#8, 4#8, 0#8, 1#8, 0#8, 2#8, 0x77#8, 0x6E#8] s)) =
      some [0x0002#16] := by decide +kernel

/-- Witness for FailedCoilWriteIsNotRolledBack: V-W16, and a first register that is absent. -/
theorem witness_FailedCoilWriteIsNotRolledBack :
    3 < (5#16 : Word).toNat ∧ ResolvesTo coilDevice .coil 0x1A#16 3 (fun i => 7 + i) ∧
    resolve ((0x1A#16 : Word).toNat + 3) .coil coilDevice = none ∧ (∀ i, i < 3 → 7 + i / 8 ≤ 254) ∧
    resolve ((0x12#16 : Word).toNat + 0) .coil coilDevice = none := by decide +kernel

/-- Witness for FailedRegisterWriteIsNotRolledBack: V-W20. -/
theorem witness_FailedRegisterWriteIsNotRolledBack :
    2 < (3#16 : Word).toNat ∧ ResolvesTo registerDevice .holdingRegister 0#16 2 id ∧
    resolve ((0#16 : Word).toNat + 2) .holdingRegister registerDevice = none ∧ (∀ i, i < 2 → 8 + 2 * i ≤ 254) := by
  decide +kernel

/-- Witness for DataBeyondBufferIsRefused: the smallest quantities. -/
theorem witness_DataBeyondBufferIsRefused :
    (∀ k, 1984 < (1985#16 : Word).toNat ∧ ResolvesTo (engine (bank k 0 0 1985) [] []) k 0#16 1985 id) ∧
    (∀ k, 124 < (125#16 : Word).toNat ∧ ResolvesTo (engine (bank k 0 0 125) [] []) k 0#16 125 id) :=
  ⟨fun k => ⟨by decide, engine_bank_resolves k 1985 (by omega)⟩,
    fun k => ⟨by decide, engine_bank_resolves k 125 (by omega)⟩⟩

/-- Witness for WriteCoilsWritesTheGivenBits: the largest number of coils, 1968, and ten. -/
theorem witness_WriteCoilsWritesTheGivenBits :
    (∀ bs : List Bool, bs.length = 1968 → bs.length ≤ 1968 ∧
      ResolvesTo (engine (bank .coil 0 0 bs.length) [] []) .coil 0#16 bs.length id) ∧
    ResolvesTo coilDevice .coil 0x13#16 (List.replicate 10 true).length id :=
  ⟨fun bs h => ⟨by omega, engine_bank_resolves _ _ (by omega)⟩, by decide +kernel⟩

/-- Witness for WriteRegistersWritesTheGivenWords: the largest number of registers, 123. -/
theorem witness_WriteRegistersWritesTheGivenWords (ws : List Word) (h : ws.length = 123) : ws.length ≤ 123 ∧
    ResolvesTo (engine (bank .holdingRegister 0 0 ws.length) [] []) .holdingRegister 0#16 ws.length id :=
  ⟨by omega, engine_bank_resolves _ _ (by omega)⟩

/-- Witness for EveryHandlerFrame, CoilWriteFrame and RegisterWriteFrame: every write reaches a next state, and a cell
that the request does not address exists. -/
theorem witness_write_frames :
    (∃ t, exec (.writeSingleCoil 0x11#8 5#16 1#16) writeDevice = .next t) ∧
    resolve (5#16 : Word).toNat .coil writeDevice ≠ some 1 ∧
    (∃ t, exec (.writeSingleRegister 0x11#8 1#16 1#16) writeDevice = .next t) ∧
    resolve (1#16 : Word).toNat .holdingRegister writeDevice ≠ some 1 ∧
    (∃ t, exec (.writeMultipleCoils 0x11#8 0x13#16 2#16 1#8 [3#8]) coilDevice = .next t) ∧
    (∀ i, i < (2#16 : Word).toNat → resolve ((0x13#16 : Word).toNat + i) .coil coilDevice ≠ some 2) ∧
    (∃ t, exec (.writeMultipleRegisters 0x11#8 0#16 1#16 2#8 [1#8, 2#8]) registerDevice = .next t) ∧
    (∀ i, i < (1#16 : Word).toNat → resolve ((0#16 : Word).toNat + i) .holdingRegister registerDevice ≠ some 1) :=
  ⟨answers (by decide +kernel), by decide +kernel, answers (by decide +kernel), by decide +kernel,
    answers (by decide +kernel), by decide +kernel, answers (by decide +kernel), by decide +kernel⟩

/-- Witness for the statements about host and environment: each event can come next. -/
theorem witness_events (e : Event) : ({ holdingDevice with pending := [e] } : State).pending = e :: [] := rfl

/-- Witness for EveryStepKeepsTheInvariant, EnvelopeAlwaysAnswers, EveryStepSendsAtMostOneFrame: a state at the bound
of the envelope that a POLL leaves, and a frame sent. -/
theorem witness_invariant :
    let s := received readRequest holdingDevice
    Inv s ∧ Envelope s ∧ s.tblCap = 124 ∧ (∃ t, step s = .next t) ∧ FrameOk (appendCrc [0x11#8, 0x81#8, 0x02#8]) := by
  refine ⟨⟨⟨by decide, by decide, by decide, fun i hi => absurd hi (by simp [received, holdingDevice, engine, State.reset])⟩,
    by decide +kernel, by decide +kernel⟩, by decide, rfl, answers (by decide +kernel), by decide +kernel⟩

/-- Witness for IllegalDataValueIsNeverSent: a step that sends a frame. -/
theorem witness_IllegalDataValueIsNeverSent :
    ∃ t, step (received [0x11#8, 0x63#8] holdingDevice) = .next t ∧
      [0x11#8, 0xE3#8, 0x01#8, 0xA9#8, 0x35#8] ∈ t.txlog ∧
      [0x11#8, 0xE3#8, 0x01#8, 0xA9#8, 0x35#8] ∉ (received [0x11#8, 0x63#8] holdingDevice).txlog :=
  next_of (by decide +kernel)

/-- Witness for PollEndsInOneOfTheSummarysWays and MasterWritesOnlyCoilsAndHoldingRegisters: a POLL that writes. -/
theorem witness_poll_that_writes :
    let s := received [0x11#8, 0x05#8, 0x00#8, 0x05#8, 0x00#8, 0x01#8, 0x1E#8, 0x9B#8] writeDevice
    PollNext s (started s) ∧ ∃ t, step s = .next t ∧ readBit t 0 ≠ readBit s 0 :=
  ⟨by decide +kernel, next_of (by decide +kernel)⟩

/-- A stalled engine: nine bytes of an 8-byte request. -/
def stalledDevice : State := drain { holdingDevice with rxq := readRequest ++ [0x11#8] }

/-- Witness for OnlyResetLeavesAStall: the fewest bytes that stall (R268). -/
theorem witness_OnlyResetLeavesAStall :
    Inv stalledDevice ∧ Stalled stalledDevice ∧ ∀ es, stalledDevice.pending ≠ .reset :: es := by
  refine ⟨⟨⟨by decide +kernel, by decide +kernel, by decide +kernel, ?_⟩, by decide +kernel, by decide +kernel⟩,
    by decide +kernel, fun es h => by cases h⟩
  have : stalledDevice.len = 9 := by decide +kernel
  rw [this]
  decide +kernel

/-- Witness for OvershootStallsTheEngine: one byte too many, and the same request twice (V-A4). -/
theorem witness_OvershootStallsTheEngine :
    let i : Instr := .readHoldingRegisters 0x11#8 0#16 2#16
    wellFormed i = true ∧ isRequest i = true ∧ (encode i).length < 255 ∧ encode i = readRequest ∧
      ([0x11#8] : List Byte) ≠ [] ∧ readRequest ≠ [] ∧ holdingDevice.len = 0 := by decide +kernel

/-- Witness for LargeByteCountStallsTheEngine: V-A7, byte count 247. -/
theorem witness_LargeByteCountStallsTheEngine :
    MultipleCode 0x10#8 ∧ 247 ≤ (0xF7#8 : Byte).toNat ∧
    (let s := received [0x11#8, 0x10#8, 0#8, 0#8, 0#8, 0x7B#8, 0xF7#8] registerDevice
     PollNext s (started s) ∧ (started s).len = 0 ∧
       (started s).rxq = [0x11#8, 0x10#8, 0#8, 0#8, 0#8, 0x7B#8, 0xF7#8]) := by decide +kernel

end Sys2Proof.Tests
end

section
/-! PROOFS for spec 20_memory.md: a read looks at the table, the cells and the slave address only, and sends one frame. -/

namespace Sys2Proof.Machine

/-- `u` agrees with `s` on everything a read request looks at (R61): the table, the cells and the slave address. -/
structure SameReadView (s u : State) : Prop where
  tbl : u.tbl = s.tbl
  bits : u.bits = s.bits
  words : u.words = s.words
  slaveAddr : u.slaveAddr = s.slaveAddr

theorem SameReadView.refl (s : State) : SameReadView s s := ⟨rfl, rfl, rfl, rfl⟩

/-- What a read of booleans collects is a function of the view. -/
theorem SameReadView.readEach_readBit {s u : State} (hv : SameReadView s u) (k : Kind) (start i n : Nat) :
    readEach (readBit u) k start u i n = readEach (readBit s) k start s i n := by
  rw [readEach_congr hv.tbl, funext (readBit_congr hv.bits)]

/-- What a read of words collects is a function of the view. -/
theorem SameReadView.readEach_readWord {s u : State} (hv : SameReadView s u) (k : Kind) (start i n : Nat) :
    readEach (readWord u) k start u i n = readEach (readWord s) k start s i n := by
  rw [readEach_congr hv.tbl, funext (readWord_congr hv.words)]

/-- The handler `m` does nothing but send `f` and finish with status `p`, from `s` and from every state with the same
view. -/
def RepliesFromView (m : State → Outcome) (s : State) : Prop :=
  ∃ (p : PollStatus) (f : List Byte), ∀ u, SameReadView s u → m u = .next (finish p (txWrite f u))

/-- A handler that continues like `m` on every state with the view of `s` replies as `m` does. -/
theorem RepliesFromView.congr {m m' : State → Outcome} {s : State} (hm : RepliesFromView m s)
    (h : ∀ u, SameReadView s u → m' u = m u) : RepliesFromView m' s := by
  obtain ⟨p, f, hf⟩ := hm
  exact ⟨p, f, fun u hv => (h u hv).trans (hf u hv)⟩

theorem raiseAddress_repliesFromView (fc : Byte) (s : State) : RepliesFromView (raiseAddress fc) s :=
  ⟨.exception, appendCrc [s.slaveAddr, fc ||| 0x80#8, 0x02#8], fun u hv => by
    rw [← hv.slaveAddr]; exact raiseAddress_eq fc u⟩

/-- A data reply that is not refused: its length, hence the refusal, does not depend on the state. -/
theorem replyData_repliesFromView {addr fc : Byte} {d : List Byte} {s t : State}
    (h : replyData addr fc d s = .next t) : RepliesFromView (replyData addr fc d) s := by
  rw [replyData_eq] at h
  split_ifs at h with hd
  exact ⟨.replied, appendCrc ([addr, fc, BitVec.ofNat 8 d.length] ++ d), fun u _ => by
    rw [replyData_eq, if_neg hd]; rfl⟩

theorem readBits_repliesFromView {k : Kind} {addr fc : Byte} {start qty : Word} {s t : State}
    (h : readBits k addr fc start qty s = .next t) : RepliesFromView (readBits k addr fc start qty) s := by
  cases hr : readEach (readBit s) k start.toNat s 0 qty.toNat with
  | none =>
    exact (raiseAddress_repliesFromView fc s).congr fun u hv => by
      simp only [readBits, hv.readEach_readBit, hr]
  | some bs =>
    simp only [readBits, hr] at h
    exact (replyData_repliesFromView h).congr fun u hv => by
      simp only [readBits, hv.readEach_readBit, hr]

theorem readWords_repliesFromView {k : Kind} {addr fc : Byte} {start qty : Word} {s t : State}
    (h : readWords k addr fc start qty s = .next t) : RepliesFromView (readWords k addr fc start qty) s := by
  cases hr : readEach (readWord s) k start.toNat s 0 qty.toNat with
  | none =>
    exact (raiseAddress_repliesFromView fc s).congr fun u hv => by
      simp only [readWords, hv.readEach_readWord, hr]
  | some ws =>
    simp only [readWords, hr] at h
    exact (replyData_repliesFromView h).congr fun u hv => by
      simp only [readWords, hv.readEach_readWord, hr]

/-- Every read request that is answered replies from the view, whichever of the four codes it has. -/
theorem exec_read_repliesFromView {addr : Byte} {start qty : Word} {i : Instr} {s t : State}
    (hi : i ∈ [.readCoils addr start qty, .readDiscreteInputs addr start qty, .readHoldingRegisters addr start qty,
      .readInputRegisters addr start qty])
    (h : exec i s = .next t) : RepliesFromView (exec i) s := by
  simp only [List.mem_cons, List.not_mem_nil, or_false] at hi
  rcases hi with rfl | rfl | rfl | rfl
  · exact readBits_repliesFromView h
  · exact readBits_repliesFromView h
  · exact readWords_repliesFromView h
  · exact readWords_repliesFromView h

/-- Settles O31 (R61): the frame and the status that `exec` gives on `s` are those of every state with the same view. -/
theorem readsAreRepeatable : Obligations.ReadsAreRepeatable := by
  intro addr start qty i s t hi h
  obtain ⟨p, f, hf⟩ := exec_read_repliesFromView hi h
  obtain rfl : finish p (txWrite f s) = t := by
    have hs := hf s (.refl s)
    rw [h] at hs
    cases hs
    rfl
  exact ⟨rfl, rfl, f, rfl, fun u htbl hbits hwords haddr => ⟨_, hf u ⟨htbl, hbits, hwords, haddr⟩, rfl, rfl⟩⟩

end Sys2Proof.Machine
end

section
/-! PROOFS for spec 40_checksum_codec.md: the checker compares the last two bytes, one by one, with the checksum. -/

namespace Sys2Proof.Machine

/-- The bytes that `crcOk` (R112) takes as the received checksum, by their indices in the sequence. -/
theorem drop_length_sub_two {f : List Byte} (hf : 2 ≤ f.length) :
    f.drop (f.length - 2) = [f.getD (f.length - 2) 0#8, f.getD (f.length - 1) 0#8] := by
  have hlast : f.length - 2 + 1 = f.length - 1 := by omega
  have hend : f.length - 1 + 1 = f.length := by omega
  rw [List.drop_eq_getElem_cons (show f.length - 2 < f.length by omega), hlast,
    List.drop_eq_getElem_cons (show f.length - 1 < f.length by omega), hend, List.drop_length,
    List.getD_eq_getElem, List.getD_eq_getElem]

/-- R112 byte by byte: the low byte of the checksum stands first. -/
theorem crcOk_iff_getD {f : List Byte} (hf : 2 ≤ f.length) :
    crcOk f = true ↔ f.getD (f.length - 2) 0#8 = lo8 (crc16 (f.take (f.length - 2))) ∧
      f.getD (f.length - 1) 0#8 = hi8 (crc16 (f.take (f.length - 2))) := by
  rw [crcOk, beq_iff_eq, drop_length_sub_two hf, crcBytes, List.cons.injEq, List.cons.injEq, and_iff_left rfl]

/-- Settles O9 (R112, R113): the generator by its definition, the checker by comparing the last two bytes. -/
theorem checkerAcceptsWhatGeneratorMakes : Obligations.CheckerAcceptsWhatGeneratorMakes :=
  ⟨fun _ => rfl, fun _ hf => crcOk_iff_getD hf⟩

end Sys2Proof.Machine
end

section
/-! PROOFS for spec 41_frame_assembler.md: a buffer that is too short, or not one frame of the predicted length, is kept
as the drain left it, and POLL reports NO_FRAME. -/

namespace Sys2Proof.Machine

/-- Fewer than two bytes hold no function code (R132). -/
theorem decode_tooShort {f : List Byte} (h : f.length < 2) : decode f = .error .tooShort := by
  match f, h with
  | [], _ => rfl
  | [_], _ => rfl

/-- What `Incomplete` (R135) says in the decoder's terms: a recognized code, and the completeness test fails. -/
theorem recognized_and_not_frameComplete_of_incomplete {s : State} (h : Incomplete s) :
    recognized (bufByte s 1) = true ∧ frameComplete (bufByte s 1) (bufBytes s) = false := by
  obtain ⟨-, ⟨hcode, hlen⟩ | ⟨hcode, hlen⟩⟩ := h
  · refine ⟨(recognized_iff _).mpr (.inl hcode), Bool.eq_false_iff.mpr fun hc => hlen ?_⟩
    rwa [frameComplete_fixed ((isFixed_iff _).mpr hcode), bufBytes_length] at hc
  · refine ⟨(recognized_iff _).mpr (.inr hcode), Bool.eq_false_iff.mpr fun hc => ?_⟩
    have hfixed := isFixed_eq_false_of_multiple ((isMultiple_iff _).mpr hcode)
    obtain ⟨h7, hpred⟩ := (frameComplete_multiple hfixed _).mp hc
    rw [bufBytes_length] at h7 hpred
    rw [bufBytes_getD s 6 h7] at hpred
    exact hlen.elim (Nat.not_lt_of_le h7) (absurd hpred)

/-- An incomplete buffer decodes to nothing yet, by name (R135). -/
theorem decode_of_incomplete {s : State} (h : Incomplete s) : decode (bufBytes s) = .error .wrongLength := by
  obtain ⟨hrec, hcomplete⟩ := recognized_and_not_frameComplete_of_incomplete h
  obtain ⟨rest, hbytes⟩ := bufBytes_eq_cons s h.1
  rw [hbytes] at hcomplete ⊢
  exact decode_wrongLength _ _ _ hrec hcomplete

/-- A POLL that finds no request, for another reason than the checksum, keeps the drained state (R132, R135). -/
theorem step_of_reject {s s0 : State} {r : Reject} (hp : PollNext s s0)
    (hd : decode (bufBytes (drain s0)) = .error r) (hr : r ≠ .badChecksum) :
    step s = .next { drain s0 with result := .poll .noFrame } :=
  (step_poll hp).trans (poll_of_error hd hr)

/-- Settles O19 (R132): the decoder rejects the drained buffer as too short. -/
theorem tooShortBufferWaits : Obligations.TooShortBufferWaits := by
  intro s s0 hp hlen
  have hd : decode (bufBytes (drain s0)) = .error .tooShort := decode_tooShort (by rwa [bufBytes_length])
  exact step_of_reject hp hd (by decide)

/-- Settles O20 (R135): the decoder rejects the drained buffer for its length. -/
theorem incompleteFrameWaits : Obligations.IncompleteFrameWaits :=
  fun _ _ hp hinc => step_of_reject hp (decode_of_incomplete hinc) (by decide)

end Sys2Proof.Machine
end

section
/-! PROOFS for spec 46_register_table.md: lookup takes the first entry with the address, and INSERT appends an entry only
when the table has room and no entry has the address. -/

namespace Sys2Proof.Machine

/-- What lookup returns: the first entry with the address (R218). -/
theorem lookup_eq_some_iff {a : Word} {s : State} {e : Register} :
    lookup a s = some e ↔ ∃ p q : List Register, s.tbl = p ++ e :: q ∧ e.addr = a ∧ ∀ e' ∈ p, e'.addr ≠ a := by
  rw [lookup, List.find?_eq_some_iff_append]
  constructor
  · rintro ⟨ha, p, q, htbl, hp⟩
    exact ⟨p, q, htbl, by simpa using ha, by simpa using hp⟩
  · rintro ⟨p, q, htbl, ha, hp⟩
    exact ⟨by simpa using ha, p, q, htbl, by simpa using hp⟩

/-- Lookup returns nothing exactly when no entry has the address (R218). -/
theorem lookup_eq_none_iff {a : Word} {s : State} : lookup a s = none ↔ ∀ e ∈ s.tbl, e.addr ≠ a := by
  simp [lookup]

/-- Settles O12 (R218): the library's first match, read on the table's addresses. -/
theorem lookupReturnsTheFirstMatch : Obligations.LookupReturnsTheFirstMatch :=
  fun _ _ => ⟨fun _ => lookup_eq_some_iff, lookup_eq_none_iff⟩

/-- A register appended to the table is found at its own address, behind every entry that stood there before. -/
theorem lookup_of_tbl_append {s t : State} {r : Register} (h : t.tbl = s.tbl ++ [r]) (a : Word) :
    lookup a t = (lookup a s).or (if r.addr = a then some r else none) := by
  simp [lookup, h, List.find?_append, List.find?_singleton]

/-- INSERT accepts an address exactly when the table has room and the address is free (R216). -/
theorem insertAccepts_iff {a : Word} {s : State} :
    insertAccepts a s = true ↔ s.tbl.length < s.tblCap ∧ ∀ e ∈ s.tbl, e.addr ≠ a := by
  simp [insertAccepts]

section
variable {s : State} {a : Word} {k : Kind} {h : Handle} {es : List Event} (hp : s.pending = .insert a k h :: es)
include hp

/-- The next state of an INSERT that is accepted (R216). -/
theorem step_insert_of_accepts (hacc : insertAccepts a s = true) :
    step s = .next { s with tbl := s.tbl ++ [⟨a, k, h⟩], pending := es, result := .insert true } := by
  have hacc' : insertAccepts a { s with pending := es } = true := hacc
  simp only [step, hp, perform, insertRegister, if_pos hacc', returnInsert]

/-- The next state of an INSERT that is rejected (R217). -/
theorem step_insert_of_not_accepts (hacc : ¬ insertAccepts a s = true) :
    step s = .next { s with pending := es, result := .insert false } := by
  have hacc' : ¬ insertAccepts a { s with pending := es } = true := hacc
  simp only [step, hp, perform, insertRegister, if_neg hacc', returnInsert]

/-- Every INSERT: accepted with its entry appended, or rejected with nothing changed (R216, R217). -/
theorem step_insert_cases {t : State} (hstep : step s = .next t) :
    (insertAccepts a s = true ∧ t = { s with tbl := s.tbl ++ [⟨a, k, h⟩], pending := es, result := .insert true }) ∨
    (¬ insertAccepts a s = true ∧ t = { s with pending := es, result := .insert false }) := by
  by_cases hacc : insertAccepts a s = true
  · rw [step_insert_of_accepts hp hacc] at hstep
    cases hstep
    exact .inl ⟨hacc, rfl⟩
  · rw [step_insert_of_not_accepts hp hacc] at hstep
    cases hstep
    exact .inr ⟨hacc, rfl⟩

end

/-- An address that lookup finds is rejected (R217). -/
theorem not_insertAccepts_of_lookup {a : Word} {s : State} {e : Register} (he : lookup a s = some e) :
    ¬ insertAccepts a s = true := fun hacc =>
  (insertAccepts_iff.mp hacc).2 e (lookup_eq_some he).1 (lookup_eq_some he).2

/-- Settles O15 (R217): an accepted entry is appended behind a table without its address, so lookup finds it there and
nothing else new, and a second INSERT of the address meets it. -/
theorem insertedRegisterIsRetrievable : Obligations.InsertedRegisterIsRetrievable := by
  intro s t a k h es hp hstep
  obtain ⟨hacc, ht⟩ | ⟨-, rfl⟩ := step_insert_cases hp hstep
  case inr => exact ⟨fun _ => rfl, fun _ => rfl, nofun⟩
  case inl =>
    have hres : t.result = .insert true := by rw [ht]
    obtain ⟨hroom, hfree⟩ := insertAccepts_iff.mp hacc
    have hlook := lookup_of_tbl_append (s := s) (t := t) (r := ⟨a, k, h⟩) (by rw [ht])
    have hfound : lookup a t = some ⟨a, k, h⟩ := by
      rw [hlook, lookup_eq_none_iff.mpr hfree, if_pos rfl, Option.none_or]
    refine ⟨fun hfalse => ?_, fun hfull => absurd hroom (Nat.not_lt_of_le hfull), fun _ =>
      ⟨hfound, fun a' ha' => ?_, fun k' h' es' => ?_⟩⟩
    · cases hres.symm.trans hfalse
    · rw [hlook, if_neg ha'.symm, Option.or_none]
    · exact step_insert_of_not_accepts rfl (not_insertAccepts_of_lookup ((lookup_congr rfl a).trans hfound))

end Sys2Proof.Machine
end

section
/-! PROOFS for spec 60_exceptions.md: a step sends nothing, a normal reply whose code has bit 7 clear, or an exception
reply whose third byte is 1 or 2. -/

namespace Sys2Proof.Machine

/-- The frame is one that reports IllegalDataValue (R233): an exception reply (R86) with code 3 (R95). -/
def ReportsIllegalDataValue (f : List Byte) : Prop := (f.getD 1 0#8).getLsbD 7 = true ∧ f.getD 2 0#8 = 0x03#8

/-- The third byte of an exception frame is the number of its code (R86). -/
@[simp] theorem exceptionFrame_getD_two (e : ExceptionCode) (fc : Byte) (s : State) :
    (exceptionFrame e fc s).getD 2 0#8 = exceptionByte e := rfl

/-- Only the exception IllegalDataValue is reported with code 3 (R95). -/
theorem exceptionFrame_not_reportsIllegalDataValue {e : ExceptionCode} (he : e ≠ .illegalDataValue) (fc : Byte)
    (s : State) : ¬ ReportsIllegalDataValue (exceptionFrame e fc s) := by
  rintro ⟨-, hcode⟩
  rw [exceptionFrame_getD_two] at hcode
  cases e with
  | illegalFunction => exact absurd hcode (by decide)
  | illegalDataAddress => exact absurd hcode (by decide)
  | illegalDataValue => exact he rfl

/-- The function codes of the eight requests have bit 7 clear (R93). -/
theorem instrCode_getLsbD_seven {i : Instr} (hi : isRequest i = true) : (instrCode i).getLsbD 7 = false := by
  cases i with
  | illegalFunction => cases hi
  | _ => simp [instrCode]

/-- The second byte of a frame that begins with a request's address and function code is that code. -/
theorem getD_one_of_take_two {f : List Byte} {a fc : Byte} (h : f.take 2 = [a, fc]) : f.getD 1 0#8 = fc := by
  have hget : (f.take 2)[1]? = f[1]? := List.getElem?_take_of_lt (by decide)
  rw [List.getD_eq_getElem?_getD, ← hget, h]
  rfl

/-- A reply that repeats a request's address and function code is no exception reply (R83 to R85). -/
theorem reply_not_reportsIllegalDataValue {i : Instr} {f : List Byte} (hi : isRequest i = true)
    (hf : f.take 2 = [instrAddr i, instrCode i]) : ¬ ReportsIllegalDataValue f := by
  rintro ⟨hbit, -⟩
  rw [getD_one_of_take_two hf, instrCode_getLsbD_seven hi] at hbit
  cases hbit

theorem CellsWrittenFrom.txlog {s u : State} (h : CellsWrittenFrom s u) : u.txlog = s.txlog := by rw [h.1]

/-- Every end of a handler sends one frame, and none of the three reports IllegalDataValue (R233). -/
theorem HandlerEnd.txlog {i : Instr} {s t : State} (h : HandlerEnd i s t) :
    ∃ f, t.txlog = s.txlog ++ [f] ∧ ¬ ReportsIllegalDataValue f := by
  cases h with
  | illegal a fc =>
    exact ⟨exceptionFrame .illegalFunction fc s, rfl, exceptionFrame_not_reportsIllegalDataValue (by decide) fc s⟩
  | missing u hi hu =>
    exact ⟨exceptionFrame .illegalDataAddress (instrCode i) u, by simp [hu.txlog],
      exceptionFrame_not_reportsIllegalDataValue (by decide) _ u⟩
  | replied u f hi hu _ hhead =>
    exact ⟨f, by simp [hu.txlog], reply_not_reportsIllegalDataValue hi hhead⟩

/-- An event other than POLL sends nothing (R38). -/
theorem perform_txlog {e : Event} {s t : State} (he : e ≠ .poll) (h : perform e s = .next t) : t.txlog = s.txlog := by
  cases e with
  | poll => exact absurd rfl he
  | insert a k r =>
    cases h
    rw [insertRegister]
    split <;> rfl
  | _ => cases h; rfl

/-- What a step sends: nothing, or one frame that does not report IllegalDataValue. -/
theorem step_txlog {s t : State} (h : step s = .next t) :
    t.txlog = s.txlog ∨ ∃ f, t.txlog = s.txlog ++ [f] ∧ ¬ ReportsIllegalDataValue f := by
  obtain ⟨e, es, -, he, hperform⟩ | ⟨s0, hpoll, hend⟩ := step_cases h
  · exact .inl (perform_txlog (s := { s with pending := es }) he hperform)
  · have hlog : (drain s0).txlog = s.txlog := by rw [drain_txlog, pollNext_eq hpoll]
    obtain rfl | rfl | ⟨i, -, -, hexec⟩ := hend
    · exact .inl hlog
    · exact .inl hlog
    · exact .inr (hlog ▸ (exec_end hexec).txlog)

/-- Settles O56 (R233): a frame of the new log that the old log lacks is the one frame the step sent. -/
theorem illegalDataValueIsNeverSent : Obligations.IllegalDataValueIsNeverSent := by
  intro s t hstep f hf hnew
  obtain hlog | ⟨g, hlog, hg⟩ := step_txlog hstep
  · exact absurd (hlog ▸ hf) hnew
  · rw [hlog, List.mem_append, List.mem_singleton] at hf
    obtain rfl := hf.resolve_left hnew
    exact hg

end Sys2Proof.Machine
end

section
/-! PROOFS for spec 30_encoding.md: the two directions between instructions and frames. An 8-byte frame and a
variable-length frame are each one encoding; everything else is rejected under one name. -/

namespace Sys2Proof.Machine

theorem wellFormedData_iff {bc : Byte} {data : List Byte} :
    wellFormedData bc data = true ↔ data.length = bc.toNat ∧ bc.toNat + 9 ≤ 255 := by
  simp [wellFormedData, Config.bufCap]

/-- A data operand of the declared length is what field assembly takes (R82, R87). -/
theorem take_data {bc : Byte} {data : List Byte} (h : wellFormedData bc data = true) : data.take bc.toNat = data :=
  List.take_of_length_le (wellFormedData_iff.mp h).1.le

/-- Settles O3 (R81, R82, R87, R96): the decoder's law for each frame format, at the code of each instruction. -/
theorem decodeOfEncode : Obligations.DecodeOfEncode := by
  intro i hwf
  cases i with
  | writeMultipleCoils addr start qty bc data =>
    rw [encode, decode_encodeMultiple _ _ _ _ _ _ rfl (wellFormedData_iff.mp hwf).1, decodeMultiple, take_data hwf]
    rfl
  | writeMultipleRegisters addr start qty bc data =>
    rw [encode, decode_encodeMultiple _ _ _ _ _ _ rfl (wellFormedData_iff.mp hwf).1, decodeMultiple, take_data hwf]
    rfl
  | illegalFunction addr fc => exact decode_unrecognized addr fc [] (by simpa [wellFormed] using hwf)
  | _ => exact decode_encodeFixed _ _ _ _ rfl

/-! Frames as encodings. -/

/-- Every frame of 8 bytes with its checksum is in format RQ8 (R81). -/
theorem exists_eq_encodeFixed {f : List Byte} (hlen : f.length = 8) (hcrc : crcOk f = true) :
    ∃ a start qty, f = encodeFixed a (f.getD 1 0#8) start qty := by
  obtain ⟨b0, b1, b2, b3, b4, b5, rfl⟩ := eq_of_crcOk_8 hlen hcrc
  have hcode : (appendCrc [b0, b1, b2, b3, b4, b5]).getD 1 0#8 = b1 := rfl
  exact ⟨b0, be16 b2 b3, be16 b4 b5, by simp only [hcode, encodeFixed_eq, hi8_be16, lo8_be16]⟩

/-- Every frame of at least 9 bytes with its checksum is in format RQM (R82), whatever its byte count says. -/
theorem exists_eq_encodeMultiple {f : List Byte} (hlen : 9 ≤ f.length) (hcrc : crcOk f = true) :
    ∃ a start qty data, f = encodeMultiple a (f.getD 1 0#8) start qty (f.getD 6 0#8) data ∧
      data.length + 9 = f.length := by
  have hbody := (crcOk_iff f).mp hcrc
  obtain ⟨body, hf⟩ : ∃ body, f = appendCrc body := ⟨_, hbody⟩
  subst hf
  match body, hlen with
  | b0 :: b1 :: b2 :: b3 :: b4 :: b5 :: b6 :: data, _ =>
    exact ⟨b0, be16 b2 b3, be16 b4 b5, data, by simp [encodeMultiple_eq, appendCrc], by simp⟩
  | [], h | [_], h | [_, _], h | [_, _, _], h | [_, _, _, _], h | [_, _, _, _, _], h | [_, _, _, _, _, _], h =>
    simp at h

/-- The request of the code `fc` with these fields has the encoding with these fields (R81, R93). -/
theorem encode_decodeFixed {fc : Byte} (h : isFixed fc = true) (a : Byte) (start qty : Word) :
    encode (decodeFixed a fc start qty) = encodeFixed a fc start qty := by
  simp only [isFixed_iff, List.mem_cons, List.not_mem_nil, or_false] at h
  rcases h with rfl | rfl | rfl | rfl | rfl | rfl <;> rfl

/-- An 8-byte request is a request and has no ill-formed operand (R91, R98). -/
theorem decodeFixed_isRequest (a fc : Byte) (start qty : Word) :
    isRequest (decodeFixed a fc start qty) = true ∧ wellFormed (decodeFixed a fc start qty) = true := by
  unfold decodeFixed
  split_ifs <;> exact ⟨rfl, rfl⟩

/-- The multiple write of the code `fc` with its data in full has the encoding with these fields (R82, R93). -/
theorem encode_decodeMultiple {fc : Byte} (h : isMultiple fc = true) (a : Byte) (start qty : Word) {bc : Byte}
    {data : List Byte} (hdata : data.length = bc.toNat) :
    encode (decodeMultiple a fc start qty bc data) = encodeMultiple a fc start qty bc data := by
  have htake : data.take bc.toNat = data := List.take_of_length_le hdata.le
  simp only [isMultiple_iff, List.mem_cons, List.not_mem_nil, or_false] at h
  rcases h with rfl | rfl <;> simp [decodeMultiple, htake, encode]

theorem decodeMultiple_isRequest (a fc : Byte) (start qty : Word) (bc : Byte) (data : List Byte) :
    isRequest (decodeMultiple a fc start qty bc data) = true ∧
      wellFormed (decodeMultiple a fc start qty bc data) = wellFormedData bc (data.take bc.toNat) := by
  unfold decodeMultiple
  split_ifs <;> exact ⟨rfl, rfl⟩

/-! The classes of byte sequences. -/

/-- The sequence has a recognized code and the length that code predicts (R133, R136). -/
def PredictedLength (f : List Byte) : Prop :=
  (FixedCode (f.getD 1 0#8) ∧ f.length = 8) ∨
    (MultipleCode (f.getD 1 0#8) ∧ 7 ≤ f.length ∧ f.length = (f.getD 6 0#8).toNat + 9)

/-- The sequence has a recognized code and another length than that code predicts (R135). -/
def MispredictedLength (f : List Byte) : Prop :=
  (FixedCode (f.getD 1 0#8) ∧ f.length ≠ 8) ∨
    (MultipleCode (f.getD 1 0#8) ∧ (f.length < 7 ∨ f.length ≠ (f.getD 6 0#8).toNat + 9))

theorem PredictedLength.eight_le {f : List Byte} (h : PredictedLength f) : 8 ≤ f.length := by
  rcases h with ⟨-, h⟩ | ⟨-, -, h⟩ <;> omega

theorem PredictedLength.recognized {f : List Byte} (h : PredictedLength f) : recognized (f.getD 1 0#8) = true :=
  (recognized_iff _).mpr (h.imp And.left And.left)

theorem MispredictedLength.recognized {f : List Byte} (h : MispredictedLength f) : recognized (f.getD 1 0#8) = true :=
  (recognized_iff _).mpr (h.imp And.left And.left)

/-- No code has both formats (R92). -/
theorem not_multipleCode_of_fixedCode {fc : Byte} (h : FixedCode fc) : ¬ MultipleCode fc := fun hm => by
  have hfixed := isFixed_eq_false_of_multiple ((isMultiple_iff fc).mpr hm)
  rw [(isFixed_iff fc).mpr h] at hfixed
  cases hfixed

theorem PredictedLength.not_mispredicted {f : List Byte} (h : PredictedLength f) : ¬ MispredictedLength f := by
  rintro (⟨hc, hlen⟩ | ⟨hc, hlen⟩) <;> rcases h with ⟨hc', hlen'⟩ | ⟨hc', h7, hlen'⟩
  · exact hlen hlen'
  · exact not_multipleCode_of_fixedCode hc hc'
  · exact not_multipleCode_of_fixedCode hc' hc
  · exact hlen.elim (by omega) (absurd hlen')

/-- The completeness test compares the length with the predicted one (R133). -/
theorem frameComplete_iff {f : List Byte} (hrec : recognized (f.getD 1 0#8) = true) :
    frameComplete (f.getD 1 0#8) f = true ↔ PredictedLength f := by
  rcases (recognized_iff _).mp hrec with hc | hc
  · rw [frameComplete_fixed ((isFixed_iff _).mpr hc)]
    exact ⟨fun h => .inl ⟨hc, h⟩, fun h => h.elim And.right fun hm => absurd hm.1 (not_multipleCode_of_fixedCode hc)⟩
  · rw [frameComplete_multiple (isFixed_eq_false_of_multiple ((isMultiple_iff _).mpr hc))]
    exact ⟨fun h => .inr ⟨hc, h⟩, fun h => h.elim (fun hf => absurd hc (not_multipleCode_of_fixedCode hf.1)) And.right⟩

/-- A recognized code has its predicted length or another one. -/
theorem mispredicted_of_not_predicted {f : List Byte} (hrec : recognized (f.getD 1 0#8) = true)
    (h : ¬ PredictedLength f) : MispredictedLength f := by
  rcases (recognized_iff _).mp hrec with hc | hc
  · exact .inl ⟨hc, fun hlen => h (.inl ⟨hc, hlen⟩)⟩
  · refine .inr ⟨hc, ?_⟩
    by_contra hlen
    rw [not_or, not_lt, not_not] at hlen
    exact h (.inr ⟨hc, hlen⟩)

theorem eq_cons_of_two_le {f : List Byte} (h : 2 ≤ f.length) :
    ∃ rest, f = f.getD 0 0#8 :: f.getD 1 0#8 :: rest := by
  match f, h with
  | a :: fc :: rest, _ => exact ⟨rest, rfl⟩

/-- A frame of the predicted length with its checksum is the encoding of a well-formed request, which it decodes to
(R87, R154), provided it fits the buffer. -/
theorem decode_of_predicted {f : List Byte} (h : PredictedLength f) (hcrc : crcOk f = true) :
    ∃ i, decode f = .ok i ∧ isRequest i = true ∧ encode i = f ∧ (f.length ≤ 255 → wellFormed i = true) := by
  rcases h with ⟨hc, hlen⟩ | ⟨hc, -, hlen⟩
  · obtain ⟨a, start, qty, hf⟩ := exists_eq_encodeFixed hlen hcrc
    have hfixed := (isFixed_iff _).mpr hc
    generalize f.getD 1 0#8 = fc at hf hfixed
    subst hf
    obtain ⟨hreq, hwf⟩ := decodeFixed_isRequest a fc start qty
    exact ⟨_, decode_encodeFixed a fc start qty hfixed, hreq, encode_decodeFixed hfixed a start qty, fun _ => hwf⟩
  · obtain ⟨a, start, qty, data, hf, hdata⟩ := exists_eq_encodeMultiple (by omega) hcrc
    have hmultiple := (isMultiple_iff _).mpr hc
    have hbc : data.length = (f.getD 6 0#8).toNat := by omega
    generalize f.getD 1 0#8 = fc at hf hmultiple
    generalize f.getD 6 0#8 = bc at hf hbc hlen
    subst hf
    obtain ⟨hreq, hwf⟩ := decodeMultiple_isRequest a fc start qty bc data
    refine ⟨_, decode_encodeMultiple a fc start qty bc data hmultiple hbc, hreq,
      encode_decodeMultiple hmultiple a start qty hbc, fun hfit => ?_⟩
    rw [hwf, List.take_of_length_le hbc.le, wellFormedData_iff]
    exact ⟨hbc, by omega⟩

theorem decode_of_mispredicted {f : List Byte} (h2 : 2 ≤ f.length) (h : MispredictedLength f) :
    decode f = .error .wrongLength := by
  have hrec := h.recognized
  have hcomplete : frameComplete (f.getD 1 0#8) f = false :=
    Bool.eq_false_iff.mpr fun hc => ((frameComplete_iff hrec).mp hc).not_mispredicted h
  obtain ⟨rest, hf⟩ := eq_cons_of_two_le h2
  generalize f.getD 1 0#8 = fc at *
  rw [hf] at hcomplete ⊢
  exact decode_wrongLength _ _ _ hrec hcomplete

theorem decode_of_wrong_checksum {f : List Byte} (h : PredictedLength f) (hcrc : crcOk f = false) :
    decode f = .error .badChecksum := by
  have hrec := h.recognized
  have hcomplete := (frameComplete_iff hrec).mpr h
  obtain ⟨rest, hf⟩ := eq_cons_of_two_le (le_trans (by decide) h.eight_le)
  generalize f.getD 1 0#8 = fc at *
  rw [hf] at hcomplete hcrc ⊢
  exact decode_badChecksum _ _ _ hrec hcomplete hcrc

theorem decode_of_unrecognized {f : List Byte} (h2 : 2 ≤ f.length) (hrec : recognized (f.getD 1 0#8) = false) :
    decode f = .ok (.illegalFunction (f.getD 0 0#8) (f.getD 1 0#8)) := by
  obtain ⟨rest, hf⟩ := eq_cons_of_two_le h2
  generalize f.getD 1 0#8 = fc at *
  rw [hf]
  exact decode_unrecognized _ _ _ hrec

/-- The five classes of byte sequences, and what each decodes to (R239). -/
inductive DecodeClass (f : List Byte) : Prop where
  | short (hlen : f.length < 2) (hd : decode f = .error .tooShort)
  | unrecognized (hlen : 2 ≤ f.length) (hrec : recognized (f.getD 1 0#8) = false)
      (hd : decode f = .ok (.illegalFunction (f.getD 0 0#8) (f.getD 1 0#8)))
  | mispredicted (hlen : 2 ≤ f.length) (hmis : MispredictedLength f) (hd : decode f = .error .wrongLength)
  | badChecksum (hpred : PredictedLength f) (hcrc : crcOk f = false) (hd : decode f = .error .badChecksum)
  | request (i : Instr) (hpred : PredictedLength f) (hcrc : crcOk f = true) (hd : decode f = .ok i)
      (hreq : isRequest i = true) (henc : encode i = f) (hwf : f.length ≤ 255 → wellFormed i = true)

theorem decodeClass (f : List Byte) : DecodeClass f := by
  by_cases hlen : f.length < 2
  · exact .short hlen (decode_tooShort hlen)
  · rw [not_lt] at hlen
    cases hrec : recognized (f.getD 1 0#8) with
    | false => exact .unrecognized hlen hrec (decode_of_unrecognized hlen hrec)
    | true =>
      by_cases hpred : PredictedLength f
      · cases hcrc : crcOk f with
        | false => exact .badChecksum hpred hcrc (decode_of_wrong_checksum hpred hcrc)
        | true =>
          obtain ⟨i, hd, hreq, henc, hwf⟩ := decode_of_predicted hpred hcrc
          exact .request i hpred hcrc hd hreq henc hwf
      · have hmis := mispredicted_of_not_predicted hrec hpred
        exact .mispredicted hlen hmis (decode_of_mispredicted hlen hmis)

/-- Settles O4 (R87, log 12): of the five classes only two decode to an instruction. -/
theorem encodeOfDecode : Obligations.EncodeOfDecode := by
  intro f i hfit hdec
  cases decodeClass f with
  | short _ hd | mispredicted _ _ hd | badChecksum _ _ hd => rw [hd] at hdec; cases hdec
  | unrecognized _ hrec hd =>
    rw [hd] at hdec
    cases hdec
    exact ⟨by simp only [wellFormed, hrec, Bool.not_false], nofun⟩
  | request j _ _ hd _ henc hwf =>
    rw [hd] at hdec
    cases hdec
    exact ⟨hwf hfit, fun _ => henc⟩

/-- Settles O5 (R132, R133, R135, R153): each name belongs to one of the five classes, and the classes exclude each
other. -/
theorem decodeRejectsByName : Obligations.DecodeRejectsByName := by
  intro f
  change (_ ↔ _) ∧ (_ ↔ 2 ≤ f.length ∧ MispredictedLength f) ∧ (_ ↔ 2 ≤ f.length ∧ crcOk f = false ∧ PredictedLength f)
  cases decodeClass f with
  | short hlen hd => simp [hd, hlen, Nat.not_le_of_lt hlen]
  | unrecognized hlen hrec hd =>
    have hmis : ¬ MispredictedLength f := fun h => Bool.false_ne_true (hrec.symm.trans h.recognized)
    have hpred : ¬ PredictedLength f := fun h => Bool.false_ne_true (hrec.symm.trans h.recognized)
    simp [hd, hlen, Nat.not_lt_of_le hlen, hmis, hpred]
  | mispredicted hlen hmis hd =>
    have hpred : ¬ PredictedLength f := fun h => h.not_mispredicted hmis
    simp [hd, hlen, Nat.not_lt_of_le hlen, hmis, hpred]
  | badChecksum hpred hcrc hd =>
    have hlen : 2 ≤ f.length := le_trans (by decide) hpred.eight_le
    simp [hd, hlen, Nat.not_lt_of_le hlen, hcrc, hpred, hpred.not_mispredicted]
  | request i hpred hcrc hd =>
    have hlen : 2 ≤ f.length := le_trans (by decide) hpred.eight_le
    simp [hd, hlen, Nat.not_lt_of_le hlen, hcrc, hpred.not_mispredicted]

/-- Settles O1: four frames written out, decoded by evaluation. -/
theorem specWordsDecode : Obligations.SpecWordsDecode :=
  ⟨by decide +kernel, by decide +kernel, by decide +kernel, by decide +kernel⟩

/-- Settles O2 (R93, R94): the 256 values of byte 1, each evaluated. -/
theorem opcodeTableDecodes : Obligations.OpcodeTableDecodes := by
  unfold Obligations.OpcodeTableDecodes
  decide +kernel

end Sys2Proof.Machine
end

section
/-! PROOFS for spec 40_checksum_codec.md: one shift of the checksum loses nothing, so neither does a byte; a byte whose
low half cancels shifts the register down by eight bits. The codec of words and of packed booleans. -/

namespace Sys2Proof.Machine

/-- Settles O6 (R111 a, R110): the vector, evaluated. -/
theorem checksumReferenceVector : Obligations.ChecksumReferenceVector :=
  ⟨by decide +kernel, by decide +kernel, rfl⟩

/-! One changed byte. -/

/-- The bit that a shift loses stands in bit 15 of its result, because 0xA001 has that bit. -/
theorem crcShift_getLsbD_fifteen (c : Word) : (crcShift c).getLsbD 15 = c.getLsbD 0 := by
  unfold crcShift
  cases c.getLsbD 0 <;> simp

theorem crcShift_injective : Function.Injective crcShift := by
  intro c d h
  have hlost : c.getLsbD 0 = d.getLsbD 0 := by
    rw [← crcShift_getLsbD_fifteen c, ← crcShift_getLsbD_fifteen d, h]
  have hkept : c >>> 1 = d >>> 1 := by
    unfold crcShift at h
    rw [hlost] at h
    split_ifs at h
    · exact (BitVec.xor_left_inj _).mp h
    · exact h
  apply BitVec.eq_of_getLsbD_eq
  intro k _
  cases k with
  | zero => exact hlost
  | succ k => simpa [Nat.add_comm] using congrArg (·.getLsbD k) hkept

theorem crcShift8_injective : Function.Injective crcShift8 := by
  have h := crcShift_injective
  exact h.comp (h.comp (h.comp (h.comp (h.comp (h.comp (h.comp h))))))

theorem crcByte_left_injective (b : Byte) : Function.Injective (crcByte · b) := fun _ _ h =>
  (BitVec.xor_left_inj _).mp (crcShift8_injective h)

theorem crcByte_right_injective (c : Word) : Function.Injective (crcByte c) := fun x y h => by
  have hwide : x.setWidth 16 = y.setWidth 16 := (BitVec.xor_right_inj _).mp (crcShift8_injective h)
  simpa using congrArg (BitVec.setWidth 8) hwide

theorem foldl_crcByte_injective (s : List Byte) : Function.Injective (s.foldl crcByte ·) := by
  induction s with
  | nil => exact Function.injective_id
  | cons b s ih => exact ih.comp (crcByte_left_injective b)

/-- Settles O7 (R111 b): the registers differ after the changed byte, and no later byte makes them meet. -/
theorem checksumSeesOneChangedByte : Obligations.ChecksumSeesOneChangedByte := by
  intro p q x y hxy h
  simp only [crc16, List.foldl_append, List.foldl_cons] at h
  exact hxy (crcByte_right_injective _ (foldl_crcByte_injective q h))

/-! The residue. -/

/-- A shift that loses a 0 XORs nothing in. -/
theorem crcShift_shiftRight {c : Word} {n : Nat} (h : c.getLsbD n = false) : crcShift (c >>> n) = c >>> (n + 1) := by
  have hlost : (c >>> n).getLsbD 0 = false := by simpa using h
  rw [crcShift, hlost, if_neg Bool.false_ne_true, BitVec.shiftRight_add]

/-- Eight shifts of a register whose low byte is 0 move the high byte down. -/
theorem crcShift8_of_low_zero {c : Word} (h : ∀ k, k < 8 → c.getLsbD k = false) : crcShift8 c = c >>> 8 := by
  have hshift : ∀ k, k < 8 → crcShift (c >>> k) = c >>> (k + 1) := fun k hk => crcShift_shiftRight (h k hk)
  have hfirst : crcShift c = c >>> 1 := by simpa using hshift 0 (by decide)
  rw [crcShift8, hfirst, hshift 1 (by decide), hshift 2 (by decide), hshift 3 (by decide), hshift 4 (by decide),
    hshift 5 (by decide), hshift 6 (by decide), hshift 7 (by decide)]

/-- The low byte of the register cancels: the high byte is what remains (R110). -/
theorem crcByte_lo8 (c : Word) : crcByte c (lo8 c) = (hi8 c).setWidth 16 := by
  have hlow : ∀ k, k < 8 → (c ^^^ (lo8 c).setWidth 16).getLsbD k = false := fun k hk => by
    simp [lo8, hk, show k < 16 by omega]
  rw [crcByte, crcShift8_of_low_zero hlow]
  apply BitVec.eq_of_getLsbD_eq
  intro k hk
  by_cases h8 : k < 8
  · simp [lo8, hi8, hk, h8]
  · simp [lo8, hi8, h8, BitVec.getLsbD_of_ge c (8 + k) (by omega)]

/-- A register equal to the byte becomes 0. -/
theorem crcByte_setWidth (b : Byte) : crcByte (b.setWidth 16) b = 0#16 := by
  rw [crcByte, BitVec.xor_self]; rfl

/-- Settles O8 (R111 c): the low byte leaves the high byte, the high byte leaves 0. -/
theorem checksumResidueIsZero : Obligations.ChecksumResidueIsZero := by
  intro s
  have hfold : crc16 (s ++ [lo8 (crc16 s), hi8 (crc16 s)]) =
      crcByte (crcByte (crc16 s) (lo8 (crc16 s))) (hi8 (crc16 s)) := by
    rw [crc16, List.foldl_append]; rfl
  rw [hfold, crcByte_lo8, crcByte_setWidth]

/-! The codec. -/

/-- Settles O10 (R116, R117, R54): each clause is the law of one packed bit. -/
theorem packedBitsStandWhereTheRuleSays : Obligations.PackedBitsStandWhereTheRuleSays := by
  intro bs
  have hbit : ∀ i, ((packBits bs).getD (i / 8) 0#8).getLsbD (i % 8) = bs.getD i false := fun i => by
    rw [packBits_getLsbD bs _ _ (Nat.mod_lt i (by decide)), Nat.div_add_mod]
  refine ⟨packBits_length bs, fun i _ => hbit i, fun j k hk hlen => ?_, fun i _ => hbit i⟩
  rw [packBits_getLsbD bs j k hk, List.getD_eq_default _ _ hlen]

theorem hi8_eq_ofNat (w : Word) : hi8 w = BitVec.ofNat 8 (w.toNat / 256) := by
  apply BitVec.eq_of_toNat_eq
  simp [hi8, Nat.shiftRight_eq_div_pow]

/-- The low byte of a word, as a number. -/
theorem lo8_eq_ofNat (w : Word) : lo8 w = BitVec.ofNat 8 (w.toNat % 256) := by
  apply BitVec.eq_of_toNat_eq
  simp [lo8]

theorem be16_toNat (h l : Byte) : (be16 h l).toNat = 256 * h.toNat + l.toNat := by
  rw [be16, BitVec.toNat_append, ← Nat.shiftLeft_add_eq_or_of_lt l.isLt, Nat.shiftLeft_eq, Nat.mul_comm]

/-- Settles O11 (R114, R115). -/
theorem wordCodecIsBigEndian : Obligations.WordCodecIsBigEndian :=
  ⟨fun w => by rw [enc16, hi8_eq_ofNat, lo8_eq_ofNat], be16_toNat, be16_hi8_lo8,
    fun h l => by rw [enc16, hi8_be16, lo8_be16]⟩

end Sys2Proof.Machine
end

section
/-! PROOFS for spec 46_register_table.md and 10_state.md: the table as the requests and INSERT see it, the events between
polls, and the state right after reset. -/

namespace Sys2Proof.Machine

/-- Settles O13 (R161): what resolves is the first entry with the address, and in a table of distinct addresses every
entry is the first with its own. -/
theorem resolveFindsTheRegisteredCell : Obligations.ResolveFindsTheRegisteredCell := by
  intro a k h s htbl
  rw [resolve_eq_some_iff]
  exact and_congr_right fun _ => ⟨fun hl => (lookup_eq_some hl).1, fun hm => lookup_of_mem htbl.2 hm⟩

/-- Settles O14 (R216, R217): the two conditions are whether INSERT accepts. -/
theorem insertAppendsOrChangesNothing : Obligations.InsertAppendsOrChangesNothing := by
  intro s a k h es hp
  refine ⟨fun hroom hfree => step_insert_of_accepts hp (insertAccepts_iff.mpr ⟨hroom, hfree⟩), fun hreject => ?_⟩
  refine step_insert_of_not_accepts hp fun hacc => ?_
  obtain ⟨hroom, hfree⟩ := insertAccepts_iff.mp hacc
  rcases hreject with hfull | ⟨e, he, ha⟩
  · exact Nat.not_lt_of_le hfull hroom
  · exact hfree e he ha

/-- The step of an event is what the event does (R38). -/
theorem step_of_event {s : State} {e : Event} {es : List Event} (h : s.pending = e :: es) :
    step s = perform e { s with pending := es } := by
  rw [step, h]

/-- Settles O47 (R36): by evaluation. -/
theorem resetStateIsEmpty : Obligations.ResetStateIsEmpty := ⟨rfl, rfl, rfl, fun _ => rfl, rfl⟩

/-- Settles O48 (R260). -/
theorem resetEmptiesBufferAndTable : Obligations.ResetEmptiesBufferAndTable :=
  fun _ _ hp => ⟨_, step_of_event hp, rfl⟩

/-- Settles O49 (R261). -/
theorem initBindsSlaveAddress : Obligations.InitBindsSlaveAddress := fun _ _ _ hp => step_of_event hp

/-- Settles O50 (R34, R38): a cell mutation is a write, read back by the law of the cells. -/
theorem hostAndWireStepBetweenPolls : Obligations.HostAndWireStepBetweenPolls := by
  intro s es h b w bytes
  refine ⟨fun hp => ⟨_, step_of_event hp, ?_, fun h' hne => ?_, rfl⟩,
    fun hp => ⟨_, step_of_event hp, ?_, fun h' hne => ?_, rfl⟩, fun hp => step_of_event hp⟩
  · exact (readBit_writeBit h h b s).trans (if_pos rfl)
  · exact (readBit_writeBit h h' b s).trans (if_neg hne)
  · exact (readWord_writeWord h h w s).trans (if_pos rfl)
  · exact (readWord_writeWord h h' w s).trans (if_neg hne)

/-- Settles O51: nothing is listed, so every clause holds of the empty lists. -/
theorem resetMeetsTheInvariant : Obligations.ResetMeetsTheInvariant :=
  ⟨⟨Nat.zero_le _, rfl, rfl, nofun⟩, ⟨Nat.zero_le _, List.nodup_nil⟩, rfl, rfl⟩

end Sys2Proof.Machine
end

section
/-! PROOFS for spec 41_frame_assembler.md and 42_frame_validator.md: the drained buffer read as a byte sequence of one of
the decoder's classes, and what the POLL does with each. -/

namespace Sys2Proof.Machine

/-- Settles O17 (R131): the laws of the drain. -/
theorem drainMovesBytesInOrder : Obligations.DrainMovesBytesInOrder := by
  intro s
  refine ⟨bufBytes_drain s, rfl, rfl, fun j hj => ?_, rfl⟩
  rw [drain_len] at hj
  rw [drain_read, if_neg (by omega)]

/-- An unrecognized code is addressed to every engine, a request to the engine with its address (R134, R151). -/
theorem addressed_iff {i : Instr} {s : State} :
    addressed i s = true ↔ (isRequest i = true → instrAddr i = s.slaveAddr) := by
  cases h : isRequest i <;> simp [addressed, h]

/-- A POLL whose drained buffer decodes to an instruction for this engine runs it (R130, R162). -/
theorem step_of_addressed {s s0 : State} {i : Instr} (hp : PollNext s s0) (hd : decode (bufBytes (drain s0)) = .ok i)
    (ha : addressed i (drain s0) = true) : step s = exec i (drain s0) := by
  rw [step_poll hp, poll_of_ok hd, if_pos ha]

/-- Settles O18 (R130, R162). -/
theorem stepRunsTheDecodedInstruction : Obligations.StepRunsTheDecodedInstruction :=
  fun _ _ _ hp hd ha => step_of_addressed hp hd (addressed_iff.mpr ha)

/-- A POLL whose drained buffer decodes to a request for another engine drops it (R151, R152). -/
theorem step_of_not_addressed {s s0 : State} {i : Instr} (hp : PollNext s s0)
    (hd : decode (bufBytes (drain s0)) = .ok i) (ha : addressed i (drain s0) ≠ true) :
    step s = .next { drain s0 with len := 0, result := .poll .dropped } := by
  rw [step_poll hp, poll_of_ok hd, if_neg ha]; rfl

/-- A POLL that finds a wrong checksum drops the frame (R152, R153). -/
theorem step_of_badChecksum {s s0 : State} (hp : PollNext s s0)
    (hd : decode (bufBytes (drain s0)) = .error .badChecksum) :
    step s = .next { drain s0 with len := 0, result := .poll .dropped } :=
  (step_poll hp).trans (poll_of_badChecksum hd)

/-- `Complete` (R133) in the decoder's terms. -/
theorem complete_iff {s : State} : Complete s ↔ PredictedLength (bufBytes s) := by
  by_cases h2 : 2 ≤ s.len
  · by_cases h7 : 7 ≤ s.len
    · simp only [Complete, PredictedLength, bufBytes_length, bufBytes_getD s 1 h2, bufBytes_getD s 6 h7, h2, true_and]
    · simp only [Complete, PredictedLength, bufBytes_length, bufBytes_getD s 1 h2, h2, h7, true_and, false_and]
  · exact ⟨fun h => absurd h.1 h2, fun h => by have := h.eight_le; rw [bufBytes_length] at this; omega⟩

/-- `Incomplete` (R135) in the decoder's terms. -/
theorem incomplete_iff {s : State} : Incomplete s ↔ 2 ≤ s.len ∧ MispredictedLength (bufBytes s) := by
  refine and_congr_right fun h2 => ?_
  by_cases h7 : 7 ≤ s.len
  · simp only [MispredictedLength, bufBytes_length, bufBytes_getD s 1 h2, bufBytes_getD s 6 h7]
  · simp only [MispredictedLength, bufBytes_length, bufBytes_getD s 1 h2, Nat.lt_of_not_le h7, true_or]

/-- The decoder's view of the code byte when it is unrecognized (R134). -/
theorem not_recognized_iff {fc : Byte} : recognized fc = false ↔ ¬ FixedCode fc ∧ ¬ MultipleCode fc := by
  rw [← not_or, ← recognized_iff, Bool.not_eq_true]

/-- The first two bytes of an instruction that was decoded from the buffer (R87). -/
theorem decode_bufBytes {s : State} {i : Instr} (h2 : 2 ≤ s.len) (hd : decode (bufBytes s) = .ok i) :
    instrAddr i = bufByte s 0 ∧ instrCode i = bufByte s 1 := by
  have h := decode_instrAddr hd
  rwa [bufBytes_getD s 0 (by omega), bufBytes_getD s 1 h2] at h

/-- Settles O21 (R150, R151): with a wrong checksum the frame is dropped for that, with the right one for its address. -/
theorem foreignAddressIsDropped : Obligations.ForeignAddressIsDropped := by
  intro s s0 hp hcomplete haddr
  have hpred := complete_iff.mp hcomplete
  cases hcrc : crcOk (bufBytes (drain s0)) with
  | false => exact step_of_badChecksum hp (decode_of_wrong_checksum hpred hcrc)
  | true =>
    obtain ⟨i, hd, hreq, -⟩ := decode_of_predicted hpred hcrc
    refine step_of_not_addressed hp hd fun ha => haddr ?_
    rw [← (decode_bufBytes hcomplete.1 hd).1]
    exact addressed_iff.mp ha hreq

/-- Settles O22 (R153). -/
theorem wrongChecksumIsDropped : Obligations.WrongChecksumIsDropped :=
  fun _ _ hp hcomplete _ hcrc => step_of_badChecksum hp (decode_of_wrong_checksum (complete_iff.mp hcomplete) hcrc)

/-- Settles O42 (R134, R206): the meaning of the instruction, field by field. -/
theorem illegalFunctionRepliesAndFlushes : Obligations.IllegalFunctionRepliesAndFlushes := fun _ _ _ => rfl

/-- Settles O23 (R134, R239): the decoder looks at two bytes only, and ILLEGAL_FUNCTION is run for every address. -/
theorem unrecognizedCodeIsAnswered : Obligations.UnrecognizedCodeIsAnswered := by
  intro s s0 hp h2 hfixed hmultiple
  have hrec := not_recognized_iff.mpr ⟨hfixed, hmultiple⟩
  rw [← bufBytes_getD (drain s0) 1 h2 0#8] at hrec
  have hd := decode_of_unrecognized (by rwa [bufBytes_length]) hrec
  rw [bufBytes_getD (drain s0) 1 h2] at hd
  rw [step_of_addressed hp hd rfl, illegalFunctionRepliesAndFlushes]
  rfl

/-! A request in parts, and a request with more behind it. -/

/-- Two frames of their predicted lengths, one of which begins with the other, are the same: the bytes that fix the
length are among the first eight. -/
theorem PredictedLength.eq_of_prefix {p f : List Byte} (hp : PredictedLength p) (hf : PredictedLength f)
    (h : p <+: f) : p = f := by
  refine h.eq_of_length ?_
  obtain ⟨q, rfl⟩ := h
  have h8 := hp.eight_le
  rw [PredictedLength, List.getD_append _ _ _ _ (by omega), List.getD_append _ _ _ _ (by omega)] at hf
  rcases hp with ⟨hc, hlen⟩ | ⟨hc, -, hlen⟩ <;> rcases hf with ⟨hc', hlen'⟩ | ⟨hc', -, hlen'⟩
  · exact hlen.trans hlen'.symm
  · exact absurd hc' (not_multipleCode_of_fixedCode hc)
  · exact absurd hc (not_multipleCode_of_fixedCode hc')
  · exact hlen.trans hlen'.symm

/-- A proper beginning of a frame is not complete (R135, R139). -/
theorem PredictedLength.mispredicted_of_proper_prefix {p f : List Byte} (hf : PredictedLength f) (h : p <+: f)
    (hne : p ≠ f) (h2 : 2 ≤ p.length) : MispredictedLength p := by
  refine mispredicted_of_not_predicted ?_ fun hp => hne (hp.eq_of_prefix hf h)
  obtain ⟨q, rfl⟩ := h
  have hrec := hf.recognized
  rwa [List.getD_append _ _ _ _ h2] at hrec

/-- The encoding of a well-formed request has the length its bytes predict (R81, R82, R133). -/
theorem predictedLength_encode {i : Instr} (hwf : wellFormed i = true) (hreq : isRequest i = true) :
    PredictedLength (encode i) := by
  have hdec := decodeOfEncode i hwf
  cases decodeClass (encode i) with
  | short _ hd | mispredicted _ _ hd | badChecksum _ _ hd => rw [hd] at hdec; cases hdec
  | unrecognized _ _ hd => rw [← Except.ok.inj (hd.symm.trans hdec)] at hreq; cases hreq
  | request _ hpred => exact hpred

/-- Every instruction has the shape of a frame (R80 to R82). -/
theorem frameShape (i : Instr) : Laws.FrameShape.Statement i := by
  cases i with
  | readCoils => exact Laws.FrameShape.readCoils _ _ _
  | readDiscreteInputs => exact Laws.FrameShape.readDiscreteInputs _ _ _
  | readHoldingRegisters => exact Laws.FrameShape.readHoldingRegisters _ _ _
  | readInputRegisters => exact Laws.FrameShape.readInputRegisters _ _ _
  | writeSingleCoil => exact Laws.FrameShape.writeSingleCoil _ _ _
  | writeSingleRegister => exact Laws.FrameShape.writeSingleRegister _ _ _
  | writeMultipleCoils => exact Laws.FrameShape.writeMultipleCoils _ _ _ _ _
  | writeMultipleRegisters => exact Laws.FrameShape.writeMultipleRegisters _ _ _ _ _
  | illegalFunction => exact Laws.FrameShape.illegalFunction _ _

theorem encode_length_le {i : Instr} (hwf : wellFormed i = true) : (encode i).length ≤ 255 := (frameShape i hwf).2.1

theorem bufBytes_of_empty {s : State} (h : s.len = 0) : bufBytes s = [] :=
  List.eq_nil_of_length_eq_zero (by rw [bufBytes_length, h])

/-- What a drain of an empty buffer leaves in it (R131). -/
theorem bufBytes_drain_of_empty {s : State} (h : s.len = 0) : bufBytes (drain s) = s.rxq.take 255 := by
  rw [bufBytes_drain, bufBytes_of_empty h, List.nil_append, drainCount_eq, h, List.take_eq_take_iff]
  omega

/-- When everything that waits fits the buffer, the drain takes it all (R131). -/
theorem drainCount_of_fits {s : State} (h : s.len + s.rxq.length ≤ 255) : drainCount s = s.rxq.length := by
  rw [drainCount_eq]; omega

theorem drain_of_fits {s : State} (h : (bufBytes s ++ s.rxq).length ≤ 255) :
    bufBytes (drain s) = bufBytes s ++ s.rxq ∧ (drain s).rxq = [] := by
  have hcount : drainCount s = s.rxq.length := drainCount_of_fits (by simpa using h)
  exact ⟨by rw [bufBytes_drain, hcount, List.take_length], by rw [drain_rxq, hcount, List.drop_length]⟩

/-- A proper beginning of a request decodes to nothing yet (R132, R135). -/
theorem decode_of_proper_prefix {i : Instr} {p q : List Byte} (hwf : wellFormed i = true) (hreq : isRequest i = true)
    (henc : encode i = p ++ q) (hq : q ≠ []) : ∃ r, decode p = .error r ∧ r ≠ .badChecksum := by
  by_cases h2 : p.length < 2
  · exact ⟨_, decode_tooShort h2, by decide⟩
  · have hmis := (predictedLength_encode hwf hreq).mispredicted_of_proper_prefix ⟨q, henc.symm⟩
      (fun hp => hq (by simpa [← hp] using henc)) (Nat.le_of_not_lt h2)
    exact ⟨_, decode_of_mispredicted (Nat.le_of_not_lt h2) hmis, by decide⟩

/-- A POLL that has a proper beginning of a request, in the buffer and the queue, keeps it and waits (R135). -/
theorem step_of_beginning {s s0 : State} {i : Instr} {q : List Byte} (hp : PollNext s s0) (hwf : wellFormed i = true)
    (hreq : isRequest i = true) (henc : encode i = (bufBytes s0 ++ s0.rxq) ++ q) (hq : q ≠ []) :
    step s = .next { drain s0 with result := .poll .noFrame } ∧
      bufBytes (drain s0) = bufBytes s0 ++ s0.rxq ∧ (drain s0).rxq = [] := by
  have hfit := encode_length_le hwf
  rw [henc, List.length_append] at hfit
  have hdrain := drain_of_fits (s := s0) (by omega)
  obtain ⟨r, hr, hne⟩ := decode_of_proper_prefix hwf hreq henc hq
  exact ⟨step_of_reject hp (by rw [hdrain.1]; exact hr) hne, hdrain⟩

/-- A POLL that has a whole request, in the buffer and the queue, runs it (R133, R162). -/
theorem step_of_whole {s s0 : State} {i : Instr} (hp : PollNext s s0) (hwf : wellFormed i = true)
    (haddr : instrAddr i = s0.slaveAddr) (henc : encode i = bufBytes s0 ++ s0.rxq) :
    step s = exec i (drain s0) ∧ bufBytes (drain s0) = encode i ∧ (drain s0).rxq = [] := by
  obtain ⟨hbuf, hrxq⟩ := drain_of_fits (s := s0) (by rw [← henc]; exact encode_length_le hwf)
  rw [← henc] at hbuf
  exact ⟨step_of_addressed hp (by rw [hbuf]; exact decodeOfEncode i hwf) (addressed_iff.mpr fun _ => haddr),
    hbuf, hrxq⟩

/-- Settles O24 (R131, R135, R139): the first POLL keeps the beginning, and the drain of the second completes it. -/
theorem fragmentedRequestRuns : Obligations.FragmentedRequestRuns := by
  intro s i p q es hwf hreq haddr henc hq hlen hrxq hpend
  have hparts : bufBytes s ++ s.rxq = p := by rw [bufBytes_of_empty hlen, hrxq, List.nil_append]
  obtain ⟨hstep, hbuf1, hrxq1⟩ := step_of_beginning (s := s) (s0 := { s with pending := .arrive q :: .poll :: es })
    (.inr ⟨hpend, rfl⟩) hwf hreq (henc.trans (congrArg (· ++ q) hparts.symm)) hq
  generalize hd : drain { s with pending := .arrive q :: .poll :: es } = d at hstep hbuf1 hrxq1
  have hwhole : encode i = bufBytes d ++ (d.rxq ++ q) := by rw [hbuf1, hrxq1, henc, ← hparts]; rfl
  obtain ⟨hrun, hbuf3, hrxq3⟩ := step_of_whole (i := i)
    (s := arriveBytes q { d with pending := .poll :: es, result := .poll .noFrame })
    (s0 := arriveBytes q { d with pending := es, result := .poll .noFrame }) (.inr ⟨rfl, rfl⟩) hwf
    (haddr.trans (hd ▸ rfl)) hwhole
  generalize hs3 : drain (arriveBytes q { d with pending := es, result := .poll .noFrame }) = s3 at hrun hbuf3 hrxq3
  have hlen3 : s3.len = (encode i).length := by rw [← hbuf3, bufBytes_length]
  refine ⟨_, _, s3, hstep, rfl, hd ▸ rfl, hd ▸ rfl, hd ▸ rfl, ?_, hrun, hbuf3, ?_⟩
  · have hpend1 : d.pending = .arrive q :: .poll :: es := hd ▸ rfl
    exact step_of_event (s := { d with result := .poll .noFrame }) hpend1
  · rw [← hlen3, ← hrxq3, ← hs3, ← hd]; rfl

end Sys2Proof.Machine
end

section
/-! PROOFS for spec 43_dispatch_read.md: the three ends of a read, once for booleans and once for words; each read code
is one of the two with its kind and its function code. -/

namespace Sys2Proof.Machine

section
variable {k : Kind} {addr fc : Byte} {start qty : Word} {s : State} {hs : Nat → Handle}

/-- A read of booleans that all resolve has its data (R160, R164). -/
theorem readBits_of_resolves (hr : ResolvesTo s k start qty.toNat hs) : readBits k addr fc start qty s =
    replyData addr fc (packBits ((List.range qty.toNat).map fun i => readBit s (hs i))) s := by
  have hread := readEach_eq_some (readBit s) k start.toNat s hs qty.toNat 0 (by simpa using hr)
  simp only [Nat.zero_add] at hread
  rw [readBits, hread]

/-- A read of words that all resolve has its data (R160, R166). -/
theorem readWords_of_resolves (hr : ResolvesTo s k start qty.toNat hs) : readWords k addr fc start qty s =
    replyData addr fc ((List.range qty.toNat).flatMap fun i => enc16 (readWord s (hs i))) s := by
  have hread := readEach_eq_some (readWord s) k start.toNat s hs qty.toNat 0 (by simpa using hr)
  simp only [Nat.zero_add] at hread
  simp only [readWords, hread, List.flatMap_map]

theorem packBits_range_length (n : Nat) (g : Nat → Bool) :
    (packBits ((List.range n).map g)).length = (n + 7) / 8 := by
  rw [packBits_length, List.length_map, List.length_range, ceil8]

theorem flatMap_enc16_range_length (n : Nat) (g : Nat → Word) :
    ((List.range n).flatMap fun i => enc16 (g i)).length = 2 * n := by
  rw [← List.flatMap_map (f := g) (g := enc16), flatMap_enc16_length, List.length_map, List.length_range]

theorem replyData_of_fits {d : List Byte} {n : Nat} (hd : d.length = n) (h : n + 5 ≤ 255) :
    replyData addr fc d s = .next { s with
      txlog := s.txlog ++ [appendCrc ([addr, fc, BitVec.ofNat 8 n] ++ d)], len := 0, result := .poll .replied } := by
  rw [replyData_eq, hd, if_neg (Nat.not_lt_of_le h)]

theorem replyData_of_overlong {d : List Byte} {n : Nat} (hd : d.length = n) (h : 255 < n + 5) :
    replyData addr fc d s = .refused (.replyTooLong (n + 5)) := by
  rw [replyData_eq, hd, if_pos h]

/-- A read that meets a missing register, of booleans or of words, raises IllegalDataAddress (R160, R232). -/
theorem readBits_of_missing {m : Nat} (hm : m < qty.toNat) (h : resolve (start.toNat + m) k s = none) :
    readBits k addr fc start qty s = raiseAddress fc s := by
  rw [readBits, readEach_eq_none (readBit s) k start.toNat s qty.toNat 0 m hm (by rwa [Nat.zero_add])]

theorem readWords_of_missing {m : Nat} (hm : m < qty.toNat) (h : resolve (start.toNat + m) k s = none) :
    readWords k addr fc start qty s = raiseAddress fc s := by
  rw [readWords, readEach_eq_none (readWord s) k start.toNat s qty.toNat 0 m hm (by rwa [Nat.zero_add])]

end

/-- Settles O25 (R164). -/
theorem readCoilsReplies : Obligations.ReadCoilsReplies := fun _ _ _ _ _ hr hfit =>
  (readBits_of_resolves hr).trans (replyData_of_fits (packBits_range_length _ _) hfit)

/-- Settles O26 (R165). -/
theorem readDiscreteInputsReplies : Obligations.ReadDiscreteInputsReplies := fun _ _ _ _ _ hr hfit =>
  (readBits_of_resolves hr).trans (replyData_of_fits (packBits_range_length _ _) hfit)

/-- Settles O27 (R166). -/
theorem readHoldingRegistersReplies : Obligations.ReadHoldingRegistersReplies := fun _ _ _ _ _ hr hfit =>
  (readWords_of_resolves hr).trans (replyData_of_fits (flatMap_enc16_range_length _ _) hfit)

/-- Settles O28 (R167). -/
theorem readInputRegistersReplies : Obligations.ReadInputRegistersReplies := fun _ _ _ _ _ hr hfit =>
  (readWords_of_resolves hr).trans (replyData_of_fits (flatMap_enc16_range_length _ _) hfit)

/-- Settles O29 (R160, R232). -/
theorem readOfMissingRegisterRaises : Obligations.ReadOfMissingRegisterRaises := fun _ _ _ _ _ hm =>
  ⟨fun h => readBits_of_missing hm h.2, fun h => readBits_of_missing hm h.2,
    fun h => readWords_of_missing hm h.2, fun h => readWords_of_missing hm h.2⟩

/-- Settles O30 (R169 c, R204). -/
theorem overlongReadReplyIsRefused : Obligations.OverlongReadReplyIsRefused := by
  intro addr start qty s hs
  refine ⟨fun hlong => ⟨fun hr => ?_, fun hr => ?_⟩, fun hlong => ⟨fun hr => ?_, fun hr => ?_⟩⟩
  · exact (readBits_of_resolves hr).trans (replyData_of_overlong (packBits_range_length _ _) hlong)
  · exact (readBits_of_resolves hr).trans (replyData_of_overlong (packBits_range_length _ _) hlong)
  · exact (readWords_of_resolves hr).trans (replyData_of_overlong (flatMap_enc16_range_length _ _) hlong)
  · exact (readWords_of_resolves hr).trans (replyData_of_overlong (flatMap_enc16_range_length _ _) hlong)

/-- Settles O44 (R61, R208): a read does nothing but send its reply and finish. -/
theorem readHandlerFrame : Obligations.ReadHandlerFrame := by
  intro addr start qty i s t hi h
  obtain ⟨p, f, hf⟩ := exec_read_repliesFromView hi h
  rw [hf s (.refl s)] at h
  cases h
  rfl

end Sys2Proof.Machine
end

section
/-! PROOFS for spec 44_write.md: what the single and the multiple writes leave in the cells, and what they leave alone. -/

namespace Sys2Proof.Machine

/-! The single writes. -/

theorem exec_writeSingleCoil_of_resolves (addr : Byte) {start : Word} (value : Word) {s : State} {h : Handle}
    (hr : resolve start.toNat .coil s = some h) : exec (.writeSingleCoil addr start value) s =
      replyNormal (encode (.writeSingleCoil addr start value)) (writeBit h (coilDecode value) s) := by
  rw [exec, execWriteSingleCoil, hr]

theorem exec_writeSingleCoil_of_missing (addr : Byte) {start : Word} (value : Word) {s : State}
    (hr : resolve start.toNat .coil s = none) :
    exec (.writeSingleCoil addr start value) s = raiseAddress 0x05#8 s := by
  rw [exec, execWriteSingleCoil, hr]

theorem exec_writeSingleRegister_of_resolves (addr : Byte) {start : Word} (value : Word) {s : State} {h : Handle}
    (hr : resolve start.toNat .holdingRegister s = some h) : exec (.writeSingleRegister addr start value) s =
      replyNormal (encode (.writeSingleRegister addr start value)) (writeWord h value s) := by
  rw [exec, execWriteSingleRegister, hr]

theorem exec_writeSingleRegister_of_missing (addr : Byte) {start : Word} (value : Word) {s : State}
    (hr : resolve start.toNat .holdingRegister s = none) :
    exec (.writeSingleRegister addr start value) s = raiseAddress 0x06#8 s := by
  rw [exec, execWriteSingleRegister, hr]

theorem coilDecode_eq (value : Word) : coilDecode value = decide (value ≠ 0x0000#16) := by
  by_cases h : value = 0x0000#16 <;> simp [coilDecode, h]

/-- Settles O32 (R180): the cell is read back by the law of the cells. -/
theorem writeSingleCoilWritesAndEchoes : Obligations.WriteSingleCoilWritesAndEchoes := by
  intro addr start value s h hr
  refine ⟨_, exec_writeSingleCoil_of_resolves addr value hr, ?_, fun h' hne => ?_, rfl⟩
  · exact (readBit_writeBit h h (coilDecode value) s).trans ((if_pos rfl).trans (coilDecode_eq value))
  · exact (readBit_writeBit h h' (coilDecode value) s).trans (if_neg hne)

/-- Settles O33 (R181): the cell is read back by the law of the cells. -/
theorem writeSingleRegisterWritesAndEchoes : Obligations.WriteSingleRegisterWritesAndEchoes := by
  intro addr start value s h hr
  refine ⟨_, exec_writeSingleRegister_of_resolves addr value hr, ?_, fun h' hne => ?_, rfl⟩
  · exact (readWord_writeWord h h value s).trans (if_pos rfl)
  · exact (readWord_writeWord h h' value s).trans (if_neg hne)

/-- Settles O34 (R180, R181, R232). -/
theorem singleWriteToMissingRegisterRaises : Obligations.SingleWriteToMissingRegisterRaises := fun addr _ value _ =>
  ⟨fun hr => exec_writeSingleCoil_of_missing addr value hr, fun hr => exec_writeSingleRegister_of_missing addr value hr⟩

/-! The multiple writes. -/

/-- The normal reply repeats the first six bytes of the request (R85, R203). -/
theorem replyMultiple_done (addr fc : Byte) (start qty : Word) (bc : Byte) (data : List Byte) (u : State) :
    replyMultiple fc (encodeMultiple addr fc start qty bc data) (.done u) = .next { u with
      txlog := u.txlog ++ [appendCrc [addr, fc, hi8 start, lo8 start, hi8 qty, lo8 qty]], len := 0,
      result := .poll .replied } := by
  rw [replyMultiple, encodeMultiple_take6, replyNormal_eq]

section
variable {addr : Byte} {start qty : Word} {bc : Byte} {data : List Byte} {s : State} {hs : Nat → Handle} {m : Nat}

/-- WRITE_MULTIPLE_COILS once its first `m` coils are written (R160, R182). -/
theorem exec_writeMultipleCoils_after (hm : m ≤ qty.toNat) (hr : ResolvesTo s .coil start m hs)
    (hd : ∀ i, i < m → 7 + i / 8 ≤ 254) :
    ∃ u, CoilsWritten (encode (.writeMultipleCoils addr start qty bc data)) hs s m u ∧
      exec (.writeMultipleCoils addr start qty bc data) s =
        replyMultiple 0x0F#8 (encode (.writeMultipleCoils addr start qty bc data))
          (writeEach .coil start.toNat (storeCoil (encode (.writeMultipleCoils addr start qty bc data))) m
            (qty.toNat - m) u) := by
  obtain ⟨u, hu, hgo⟩ := writeEach_coils (encode (.writeMultipleCoils addr start qty bc data)) hs s start.toNat m hr hd
  exact ⟨u, hu, by rw [← hgo, Nat.add_sub_of_le hm]; rfl⟩

/-- WRITE_MULTIPLE_REGISTERS once its first `m` registers are written (R160, R183). -/
theorem exec_writeMultipleRegisters_after (hm : m ≤ qty.toNat) (hr : ResolvesTo s .holdingRegister start m hs)
    (hd : ∀ i, i < m → 8 + 2 * i ≤ 254) :
    ∃ u, RegistersWritten (encode (.writeMultipleRegisters addr start qty bc data)) hs s m u ∧
      exec (.writeMultipleRegisters addr start qty bc data) s =
        replyMultiple 0x10#8 (encode (.writeMultipleRegisters addr start qty bc data))
          (writeEach .holdingRegister start.toNat
            (storeRegister (encode (.writeMultipleRegisters addr start qty bc data))) m (qty.toNat - m) u) := by
  obtain ⟨u, hu, hgo⟩ :=
    writeEach_registers (encode (.writeMultipleRegisters addr start qty bc data)) hs s start.toNat m hr hd
  exact ⟨u, hu, by rw [← hgo, Nat.add_sub_of_le hm]; rfl⟩

end

/-- Settles O35 (R182, R185): every coil is written, then the reply is sent. -/
theorem writeMultipleCoilsWritesEachCoil : Obligations.WriteMultipleCoilsWritesEachCoil := by
  intro addr start qty bc data s hs hr hd
  obtain ⟨u, ⟨hframe, hwritten, hother, hdraws⟩, hexec⟩ :=
    exec_writeMultipleCoils_after (addr := addr) (bc := bc) (data := data) le_rfl hr hd
  rw [Nat.sub_self] at hexec
  refine ⟨_, hexec.trans (replyMultiple_done addr _ start qty bc data u), hwritten, hother, hdraws, ?_⟩
  rw [hframe]

/-- Settles O36 (R183, R185): every register is written, then the reply is sent. -/
theorem writeMultipleRegistersWritesEachRegister : Obligations.WriteMultipleRegistersWritesEachRegister := by
  intro addr start qty bc data s hs hr hd
  obtain ⟨u, ⟨hframe, hwritten, hother, hdraws⟩, hexec⟩ :=
    exec_writeMultipleRegisters_after (addr := addr) (bc := bc) (data := data) le_rfl hr hd
  rw [Nat.sub_self] at hexec
  refine ⟨_, hexec.trans (replyMultiple_done addr _ start qty bc data u), hwritten, hother, hdraws, ?_⟩
  rw [hframe]

/-- What follows the registers before `m`, when register `m` is missing (R184). -/
theorem writeEach_missing_at {k : Kind} {start : Nat} {store : Nat → Handle → State → Except Refusal State} {s u : State}
    {m n : Nat} (hm : m < n) (htbl : u.tbl = s.tbl) (h : resolve (start + m) k s = none) :
    writeEach k start store m (n - m) u = .missing u := by
  obtain ⟨r, hr⟩ : ∃ r, n - m = r + 1 := ⟨n - m - 1, by omega⟩
  rw [hr, writeEach_missing ((resolve_congr htbl _ _).trans h)]

/-- What follows the registers before `m`, when the data of register `m` lies beyond the buffer (R185). -/
theorem writeEach_beyond_at {k : Kind} {start : Nat} {store : Nat → Handle → State → Except Refusal State} {s u : State}
    {m n : Nat} {h : Handle} {r : Refusal} (hm : m < n) (htbl : u.tbl = s.tbl) (hr : resolve (start + m) k s = some h)
    (hst : store m h u = .error r) : writeEach k start store m (n - m) u = .beyond r := by
  obtain ⟨j, hj⟩ : ∃ j, n - m = j + 1 := ⟨n - m - 1, by omega⟩
  rw [hj, writeEach_beyond ((resolve_congr htbl _ _).trans hr) hst]

theorem CoilsWritten.tbl {f : List Byte} {hs : Nat → Handle} {s t : State} {m : Nat} (h : CoilsWritten f hs s m t) :
    t.tbl = s.tbl := by rw [h.1]

theorem RegistersWritten.tbl {f : List Byte} {hs : Nat → Handle} {s t : State} {m : Nat}
    (h : RegistersWritten f hs s m t) : t.tbl = s.tbl := by rw [h.1]

/-- Settles O37 (R184): the coils before `m` are written, then the exception is raised. -/
theorem failedCoilWriteIsNotRolledBack : Obligations.FailedCoilWriteIsNotRolledBack := by
  intro addr start qty bc data s hs m hm hr hmissing hd
  obtain ⟨u, hu, hexec⟩ := exec_writeMultipleCoils_after (addr := addr) (bc := bc) (data := data) hm.le hr hd
  rw [writeEach_missing_at hm hu.tbl hmissing] at hexec
  obtain ⟨hframe, hwritten, hother, -⟩ := hu
  refine ⟨_, hexec, hwritten, hother, ?_⟩
  rw [hframe]; rfl

/-- Settles O38 (R184): the registers before `m` are written, then the exception is raised. -/
theorem failedRegisterWriteIsNotRolledBack : Obligations.FailedRegisterWriteIsNotRolledBack := by
  intro addr start qty bc data s hs m hm hr hmissing hd
  obtain ⟨u, hu, hexec⟩ := exec_writeMultipleRegisters_after (addr := addr) (bc := bc) (data := data) hm.le hr hd
  rw [writeEach_missing_at hm hu.tbl hmissing] at hexec
  obtain ⟨hframe, hwritten, hother, -⟩ := hu
  refine ⟨_, hexec, hwritten, hother, ?_⟩
  rw [hframe]; rfl

/-- Settles O39 (R185): the coils 0 to 1983 and the registers 0 to 123 have their data in the buffer, the next has not. -/
theorem dataBeyondBufferIsRefused : Obligations.DataBeyondBufferIsRefused := by
  intro addr start qty bc data s hs
  refine ⟨fun hm hr => ?_, fun hm hr => ?_⟩
  · obtain ⟨u, hu, hexec⟩ := exec_writeMultipleCoils_after (addr := addr) (bc := bc) (data := data) hm.le
      (fun i hi => hr i (by omega)) (fun i hi => by omega)
    rwa [writeEach_beyond_at hm hu.tbl (hr 1984 (by decide)) (storeCoil_beyond _ _ _ (by decide))] at hexec
  · obtain ⟨u, hu, hexec⟩ := exec_writeMultipleRegisters_after (addr := addr) (bc := bc) (data := data) hm.le
      (fun i hi => hr i (by omega)) (fun i hi => by omega)
    rwa [writeEach_beyond_at hm hu.tbl (hr 124 (by decide)) (storeRegister_beyond _ _ _ (by decide))] at hexec

/-! The pseudo-instructions. -/

/-- Data byte `j` of a variable-length request, as the handler reads it (R82, R185). -/
theorem encodeMultiple_getD (a fc : Byte) (start qty : Word) (bc : Byte) {data : List Byte} {j : Nat}
    (h : j < data.length) : (encodeMultiple a fc start qty bc data).getD (7 + j) 0#8 = data.getD j 0#8 := by
  rw [List.getD_eq_getElem?_getD, encodeMultiple_data _ _ _ _ _ _ _ h, List.getD_eq_getElem?_getD]

/-- Settles O40 (R97, R182): coil `i` takes the bit that `pack_bits` has put at its place. -/
theorem writeCoilsWritesTheGivenBits : Obligations.WriteCoilsWritesTheGivenBits := by
  intro addr start bs s hs hlen hr
  have hqty : (BitVec.ofNat 16 bs.length).toNat = bs.length := by simp; omega
  have hceil : ceil8 bs.length = (bs.length + 7) / 8 := rfl
  refine ⟨wellFormedData_iff.mpr ⟨?_, ?_⟩, ?_⟩
  · rw [packBits_length, BitVec.toNat_ofNat, Nat.mod_eq_of_lt (by omega)]
  · rw [BitVec.toNat_ofNat, Nat.mod_eq_of_lt (by omega)]; omega
  · obtain ⟨t, hexec, hwritten, -⟩ := writeMultipleCoilsWritesEachCoil addr start (BitVec.ofNat 16 bs.length)
      (BitVec.ofNat 8 (ceil8 bs.length)) (packBits bs) s hs (by rwa [hqty]) (by rw [hqty]; omega)
    rw [hqty] at hwritten
    refine ⟨t, hexec, fun i hi hlast => ?_⟩
    have hdata : i / 8 < (packBits bs).length := by rw [packBits_length]; omega
    rw [hwritten i hi hlast (by simp [encode]; omega), encode, encodeMultiple_getD _ _ _ _ _ hdata,
      packBits_getLsbD _ _ _ (Nat.mod_lt i (by decide)), Nat.div_add_mod]

/-- Word `i` of a sequence of words on the wire (R114). -/
theorem flatMap_enc16_getD (ws : List Word) (i : Nat) (hi : i < ws.length) :
    (ws.flatMap enc16).getD (2 * i) 0#8 = hi8 (ws.getD i 0#16) ∧
      (ws.flatMap enc16).getD (2 * i + 1) 0#8 = lo8 (ws.getD i 0#16) := by
  induction ws generalizing i with
  | nil => cases hi
  | cons w ws ih =>
    cases i with
    | zero => exact ⟨rfl, rfl⟩
    | succ i => exact ih i (by simpa using hi)

/-- Settles O41 (R97, R183): register `i` takes the two bytes of word `i`. -/
theorem writeRegistersWritesTheGivenWords : Obligations.WriteRegistersWritesTheGivenWords := by
  intro addr start ws s hs hlen hr
  have hqty : (BitVec.ofNat 16 ws.length).toNat = ws.length := by simp; omega
  have hbytes := flatMap_enc16_length ws
  refine ⟨wellFormedData_iff.mpr ⟨?_, ?_⟩, ?_⟩
  · rw [hbytes, BitVec.toNat_ofNat, Nat.mod_eq_of_lt (by omega)]
  · rw [BitVec.toNat_ofNat, Nat.mod_eq_of_lt (by omega)]; omega
  · obtain ⟨t, hexec, hwritten, -⟩ := writeMultipleRegistersWritesEachRegister addr start (BitVec.ofNat 16 ws.length)
      (BitVec.ofNat 8 (2 * ws.length)) (ws.flatMap enc16) s hs (by rwa [hqty]) (by rw [hqty]; omega)
    rw [hqty] at hwritten
    refine ⟨t, hexec, fun i hi hlast => ?_⟩
    obtain ⟨hhi, hlo⟩ := flatMap_enc16_getD ws i hi
    rw [hwritten i hi hlast (by simp [encode, hbytes]; omega), encode, encodeMultiple_getD _ _ _ _ _ (by omega), hhi,
      show 8 + 2 * i = 7 + (2 * i + 1) by omega, encodeMultiple_getD _ _ _ _ _ (by omega), hlo, be16_hi8_lo8]

/-! What the writes leave alone. -/

/-- `u` differs from `s` at most in the draws made and in boolean cells that some register from `start` to
`start + n - 1` resolves to as a Coil. -/
def CoilsChangedWithin (start n : Nat) (s u : State) : Prop :=
  u = { s with bits := u.bits, draws := u.draws } ∧
    ∀ h, (∀ i, i < n → resolve (start + i) .coil s ≠ some h) → readBit u h = readBit s h

/-- The same for word cells and HoldingRegisters. -/
def RegistersChangedWithin (start n : Nat) (s u : State) : Prop :=
  u = { s with words := u.words, draws := u.draws } ∧
    ∀ h, (∀ i, i < n → resolve (start + i) .holdingRegister s ≠ some h) → readWord u h = readWord s h

theorem CoilsChangedWithin.storeCoil {start n j : Nat} {s u v : State} {f : List Byte} {h : Handle}
    (hu : CoilsChangedWithin start n s u) (hj : j < n) (hr : resolve (start + j) .coil u = some h)
    (hst : storeCoil f j h u = .ok v) : CoilsChangedWithin start n s v := by
  obtain ⟨hframe, hother⟩ := hu
  obtain ⟨hframe', hother', -⟩ := storeCoil_frame hst
  rw [resolve_congr (by rw [hframe])] at hr
  refine ⟨by rw [hframe', hframe], fun h' hh' => ?_⟩
  rw [hother' h' (fun heq => hh' j hj (heq ▸ hr)), hother h' hh']

theorem RegistersChangedWithin.storeRegister {start n j : Nat} {s u v : State} {f : List Byte} {h : Handle}
    (hu : RegistersChangedWithin start n s u) (hj : j < n) (hr : resolve (start + j) .holdingRegister u = some h)
    (hst : storeRegister f j h u = .ok v) : RegistersChangedWithin start n s v := by
  obtain ⟨hframe, hother⟩ := hu
  obtain ⟨hframe', hother', -⟩ := storeRegister_frame hst
  rw [resolve_congr (by rw [hframe])] at hr
  refine ⟨by rw [hframe', hframe], fun h' hh' => ?_⟩
  rw [hother' h' (fun heq => hh' j hj (heq ▸ hr)), hother h' hh']

/-- A multiple write that is answered ends in a state of its iteration, with a frame sent and `len` 0. -/
theorem replyMultiple_next {fc : Byte} {f : List Byte} {w : WriteEnd} {t : State} (h : replyMultiple fc f w = .next t) :
    ∃ u, (w = .done u ∨ w = .missing u) ∧ t = { u with txlog := t.txlog, len := 0, result := t.result } := by
  cases w with
  | done u => cases h; exact ⟨u, .inl rfl, rfl⟩
  | missing u => cases h; exact ⟨u, .inr rfl, rfl⟩
  | beyond r => cases h

/-- What every store of a multiple write keeps, holds of a state that the answer differs from in `txlog`, `len` and
the status only. -/
theorem replyMultiple_keeps {k : Kind} {fc : Byte} {f : List Byte} {start n : Nat}
    {store : Nat → Handle → State → Except Refusal State} {s t : State} (P : State → Prop) (h0 : P s)
    (hP : ∀ j u h u', j < n → P u → resolve (start + j) k u = some h → store j h u = .ok u' → P u')
    (h : replyMultiple fc f (writeEach k start store 0 n s) = .next t) :
    ∃ u, P u ∧ t = { u with txlog := t.txlog, len := 0, result := t.result } := by
  obtain ⟨hdone, hmissing⟩ := writeEach_keeps P n 0 s h0 fun j u h' u' _ hj => hP j u h' u' (by omega)
  obtain ⟨u, hw | hw, ht⟩ := replyMultiple_next h
  · exact ⟨u, hdone u hw, ht⟩
  · exact ⟨u, hmissing u hw, ht⟩

/-- Settles O45 (R180, R182, R208). -/
theorem coilWriteFrame : Obligations.CoilWriteFrame := by
  intro addr start qty bc data s t
  refine ⟨fun h => ?_, fun h => ?_⟩
  · cases hr : resolve start.toNat .coil s with
    | none =>
      rw [exec_writeSingleCoil_of_missing addr qty hr] at h
      cases h
      exact ⟨fun _ _ => rfl, rfl⟩
    | some c =>
      rw [exec_writeSingleCoil_of_resolves addr qty hr] at h
      cases h
      exact ⟨fun h hne => (readBit_writeBit c h _ s).trans (if_neg fun heq => hne (congrArg some (Eq.symm heq))), rfl⟩
  · obtain ⟨u, ⟨hframe, hother⟩, ht⟩ := replyMultiple_keeps (CoilsChangedWithin start.toNat qty.toNat s)
      ⟨rfl, fun _ _ => rfl⟩ (fun _ _ _ _ hj hu hr hst => hu.storeCoil hj hr hst) h
    exact ⟨fun h hh => (readBit_congr (by rw [ht]) h).trans (hother h hh), by rw [ht, hframe]⟩

/-- Settles O46 (R181, R183, R208). -/
theorem registerWriteFrame : Obligations.RegisterWriteFrame := by
  intro addr start qty bc data s t
  refine ⟨fun h => ?_, fun h => ?_⟩
  · cases hr : resolve start.toNat .holdingRegister s with
    | none =>
      rw [exec_writeSingleRegister_of_missing addr qty hr] at h
      cases h
      exact ⟨fun _ _ => rfl, rfl⟩
    | some c =>
      rw [exec_writeSingleRegister_of_resolves addr qty hr] at h
      cases h
      exact ⟨fun h hne => (readWord_writeWord c h _ s).trans (if_neg fun heq => hne (congrArg some (Eq.symm heq))), rfl⟩
  · obtain ⟨u, ⟨hframe, hother⟩, ht⟩ := replyMultiple_keeps (RegistersChangedWithin start.toNat qty.toNat s)
      ⟨rfl, fun _ _ => rfl⟩ (fun _ _ _ _ hj hu hr hst => hu.storeRegister hj hr hst) h
    exact ⟨fun h hh => (readWord_congr (by rw [ht]) h).trans (hother h hh), by rw [ht, hframe]⟩

end Sys2Proof.Machine
end

section
/-! PROOFS for spec 60_exceptions.md: every way a POLL can end, said once from the decoder's classes and the ends of a
handler; what a POLL sends and which cells it may write; that events keep the table. -/

namespace Sys2Proof.Machine

/-! What a handler leaves. -/

/-- Every end of a handler leaves the state as the writes of cells did, but for the queues, `len` and the status. -/
theorem HandlerEnd.frame {i : Instr} {s t : State} (h : HandlerEnd i s t) : ∃ u, CellsWrittenFrom s u ∧
    t = { u with rxq := t.rxq, txlog := t.txlog, len := 0, result := t.result } := by
  cases h with
  | illegal => exact ⟨s, .refl s, rfl⟩
  | missing u _ hu => exact ⟨u, hu, rfl⟩
  | replied u _ _ hu => exact ⟨u, hu, rfl⟩

/-- Settles O43 (R21, R24, R61, R168, R219). -/
theorem everyHandlerFrame : Obligations.EveryHandlerFrame := by
  intro i s t h
  obtain ⟨f, hlog, -⟩ := (exec_end h).txlog
  obtain ⟨u, ⟨hu, -⟩, ht⟩ := (exec_end h).frame
  exact ⟨fun j => by rw [ht, hu], by rw [ht, hu], by rw [ht, hu], by rw [ht, hu], by rw [ht, hu], by rw [ht], f, hlog⟩

theorem exceptionFrame_ok (e : ExceptionCode) (fc : Byte) (s : State) : FrameOk (exceptionFrame e fc s) :=
  ⟨by simp [exceptionFrame], by simp [exceptionFrame, Config.txCap], crcOk_appendCrc _⟩

/-- Every end of a handler sends one right frame (R80, R204). -/
theorem HandlerEnd.sends {i : Instr} {s t : State} (h : HandlerEnd i s t) :
    ∃ f, FrameOk f ∧ t.txlog = s.txlog ++ [f] := by
  cases h with
  | illegal a fc => exact ⟨_, exceptionFrame_ok .illegalFunction fc s, rfl⟩
  | missing u _ hu => exact ⟨_, exceptionFrame_ok .illegalDataAddress (instrCode i) u, by simp [hu.txlog]⟩
  | replied u f _ hu hf => exact ⟨f, hf, by simp [hu.txlog]⟩

/-! The ends of a POLL. -/

/-- The four ends of a POLL from `s0` (R237): it waits, drops a frame, answers an unrecognized code, or runs a request
for this engine. -/
inductive PollEnd (s0 : State) : State → Prop where
  | wait (h : (drain s0).len < 2 ∨ Incomplete (drain s0)) : PollEnd s0 { drain s0 with result := .poll .noFrame }
  | drop (h : Complete (drain s0)) : PollEnd s0 { drain s0 with len := 0, result := .poll .dropped }
  | illegal (t : State) (h2 : 2 ≤ (drain s0).len) (hfixed : ¬ FixedCode (bufByte (drain s0) 1))
      (hmultiple : ¬ MultipleCode (bufByte (drain s0) 1))
      (hend : HandlerEnd (.illegalFunction (bufByte (drain s0) 0) (bufByte (drain s0) 1)) (drain s0) t) : PollEnd s0 t
  | ran (i : Instr) (t : State) (h : Complete (drain s0)) (hreq : isRequest i = true)
      (haddr : instrAddr i = bufByte (drain s0) 0) (hcode : instrCode i = bufByte (drain s0) 1)
      (hself : instrAddr i = s0.slaveAddr) (hend : HandlerEnd i (drain s0) t) : PollEnd s0 t

theorem pollEnd {s s0 t : State} (hp : PollNext s s0) (hstep : step s = .next t) : PollEnd s0 t := by
  have hlen := bufBytes_length (drain s0)
  cases decodeClass (bufBytes (drain s0)) with
  | short h hd =>
    cases hstep.symm.trans (step_of_reject hp hd (by decide))
    exact .wait (.inl (hlen ▸ h))
  | mispredicted h hmis hd =>
    cases hstep.symm.trans (step_of_reject hp hd (by decide))
    exact .wait (.inr (incomplete_iff.mpr ⟨hlen ▸ h, hmis⟩))
  | badChecksum hpred _ hd =>
    cases hstep.symm.trans (step_of_badChecksum hp hd)
    exact .drop (complete_iff.mpr hpred)
  | unrecognized h hrec hd =>
    rw [hlen] at h
    rw [bufBytes_getD _ 0 (by omega), bufBytes_getD _ 1 h] at hd
    rw [bufBytes_getD _ 1 h, not_recognized_iff] at hrec
    exact .illegal t h hrec.1 hrec.2 (exec_end ((step_of_addressed hp hd rfl).symm.trans hstep))
  | request i hpred _ hd hreq =>
    have hcomplete := complete_iff.mpr hpred
    by_cases ha : addressed i (drain s0) = true
    · obtain ⟨haddr, hcode⟩ := decode_bufBytes hcomplete.1 hd
      exact .ran i t hcomplete hreq haddr hcode (addressed_iff.mp ha hreq)
        (exec_end ((step_of_addressed hp hd ha).symm.trans hstep))
    · cases hstep.symm.trans (step_of_not_addressed hp hd ha)
      exact .drop hcomplete

/-- Every step is an event other than POLL, or a POLL with one of its ends (R38). -/
theorem step_ends {s t : State} (h : step s = .next t) :
    (∃ e es, s.pending = e :: es ∧ e ≠ .poll ∧ perform e { s with pending := es } = .next t) ∨
      ∃ s0, PollNext s s0 ∧ PollEnd s0 t :=
  (step_cases h).imp_right fun ⟨s0, hp, _⟩ => ⟨s0, hp, pollEnd hp h⟩

/-- A POLL leaves the drained state as the writes of cells did, but for the queues, `len` and the status; `len` does not
grow beyond the drain. -/
theorem PollEnd.frame {s0 t : State} (h : PollEnd s0 t) : ∃ u, CellsWrittenFrom (drain s0) u ∧
    t = { u with rxq := t.rxq, txlog := t.txlog, len := t.len, result := t.result } ∧ t.len ≤ (drain s0).len := by
  have hend : ∀ {i}, HandlerEnd i (drain s0) t → ∃ u, CellsWrittenFrom (drain s0) u ∧
      t = { u with rxq := t.rxq, txlog := t.txlog, len := t.len, result := t.result } ∧ t.len ≤ (drain s0).len := by
    intro i hi
    obtain ⟨u, hu, ht⟩ := hi.frame
    have hlen : t.len = 0 := by rw [ht]
    exact ⟨u, hu, by rw [hlen]; exact ht, by omega⟩
  cases h with
  | wait => exact ⟨drain s0, .refl _, rfl, le_rfl⟩
  | drop => exact ⟨drain s0, .refl _, rfl, Nat.zero_le _⟩
  | illegal _ _ _ _ hi => exact hend hi
  | ran _ _ _ _ _ _ _ hi => exact hend hi

/-- Settles O55 (R237): the four ends, with what each end of a handler leaves. -/
theorem pollEndsInOneOfTheSummarysWays : Obligations.PollEndsInOneOfTheSummarysWays := by
  intro s s0 t hp hstep
  cases pollEnd hp hstep with
  | wait h => exact .inl ⟨rfl, h⟩
  | drop h => exact .inr (.inl ⟨rfl, h⟩)
  | illegal _ h2 hfixed hmultiple hend =>
    refine .inr (.inr (.inl ?_))
    cases hend with
    | illegal a fc hi => cases hi; exact ⟨rfl, rfl, .inl ⟨rfl, rfl, rfl, rfl, h2, hfixed, hmultiple⟩⟩
    | missing _ hi | replied _ _ hi => cases hi
  | ran i _ h hreq haddr hcode hself hend =>
    rw [hself] at haddr
    cases hend with
    | illegal a fc hi => rw [hi] at hreq; cases hreq
    | missing u _ hu =>
      refine .inr (.inr (.inl ⟨rfl, rfl, .inr ⟨h, by rw [hu.1]; rfl, ?_⟩⟩))
      rw [← hcode, finish_txlog, raise_txlog, exceptionFrame, hu.1]
      rfl
    | replied u f _ hu _ hhead =>
      refine .inr (.inr (.inr ⟨rfl, rfl, h, haddr.symm, by rw [hu.1]; rfl, f, by rw [hu.1]; rfl, ?_⟩))
      rw [hhead, hself, hcode]

/-- Settles O57 (R24, R65, R245): what a POLL leaves is what the writes of cells left. -/
theorem masterWritesOnlyCoilsAndHoldingRegisters : Obligations.MasterWritesOnlyCoilsAndHoldingRegisters := by
  intro s s0 t hp hstep
  obtain ⟨u, ⟨hu, hbits, hwords, -⟩, ht, -⟩ := (pollEnd hp hstep).frame
  have hs0 := pollNext_eq hp
  have htbl : (drain s0).tbl = s.tbl := by rw [drain_tbl, hs0]
  refine ⟨by rw [ht, hu, hs0]; rfl, by rw [ht, hu, htbl], by rw [ht, hu, hs0]; rfl, fun h hne => ?_, fun h hne => ?_⟩
  · rw [← htbl]
    exact hbits h fun heq => hne (((readBit_congr (by rw [ht]) h).trans heq).trans (readBit_congr (by rw [hs0]; rfl) h))
  · rw [← htbl]
    exact hwords h fun heq =>
      hne (((readWord_congr (by rw [ht]) h).trans heq).trans (readWord_congr (by rw [hs0]; rfl) h))

/-- Settles O54 (R80, R138, R204). -/
theorem everyStepSendsAtMostOneFrame : Obligations.EveryStepSendsAtMostOneFrame := by
  intro s t hstep
  obtain ⟨e, es, -, he, hperform⟩ | ⟨s0, hp, hend⟩ := step_ends hstep
  · exact .inl (perform_txlog (s := { s with pending := es }) he hperform)
  · have hlog : (drain s0).txlog = s.txlog := by rw [drain_txlog, pollNext_eq hp]
    rw [← hlog]
    cases hend with
    | wait | drop => exact .inl rfl
    | illegal _ _ _ _ hi => exact .inr ⟨⟨s0, hp⟩, hi.sends⟩
    | ran _ _ _ _ _ _ _ hi => exact .inr ⟨⟨s0, hp⟩, hi.sends⟩

/-- An event other than RESET and POLL takes no entry from the table (R215 I3, R220). -/
theorem perform_tbl {e : Event} {s t : State} (hreset : e ≠ .reset) (hpoll : e ≠ .poll)
    (h : perform e s = .next t) : ∃ new, t.tbl = s.tbl ++ new := by
  cases e with
  | reset => exact absurd rfl hreset
  | poll => exact absurd rfl hpoll
  | insert a k r =>
    cases h
    rw [insertRegister]
    split
    · exact ⟨_, rfl⟩
    · exact ⟨[], (List.append_nil _).symm⟩
  | _ => cases h; exact ⟨[], (List.append_nil _).symm⟩

/-- Settles O16 (R215 I3, R220). -/
theorem onlyResetRemovesTableEntries : Obligations.OnlyResetRemovesTableEntries := by
  intro s t hstep hreset
  obtain ⟨e, es, hpend, he, hperform⟩ | ⟨s0, hp, -⟩ := step_ends hstep
  · exact perform_tbl (s := { s with pending := es }) (fun h => hreset es (h ▸ hpend)) he hperform
  · exact ⟨[], by rw [(masterWritesOnlyCoilsAndHoldingRegisters s s0 t hp hstep).2.1, List.append_nil]⟩

end Sys2Proof.Machine
end

section
/-! PROOFS for spec 10_state.md: the invariant, operation by operation. -/

namespace Sys2Proof.Machine

theorem drain_len_le {s : State} (h : s.len ≤ 255) : (drain s).len ≤ 255 := by
  rw [drain_len, drainCount_eq]; omega

/-- A shorter `len` over the same bytes keeps the buffer right (R22). -/
theorem bufferOk_of_len_le {s t : State} (h : BufferOk s) (hbuf : t.buf = s.buf) (hlen : t.len ≤ s.len) :
    BufferOk t := by
  obtain ⟨hcap, hwf, hindex, hstored⟩ := h
  rw [BufferOk, hbuf]
  exact ⟨hlen.trans hcap, hwf, hindex, fun i hi => hstored i (hi.trans_le hlen)⟩

/-- The drain stores within the buffer, and every byte it makes valid it stores (R21, R131). -/
theorem bufferOk_drain {s : State} (h : BufferOk s) : BufferOk (drain s) := by
  obtain ⟨hcap, hwf, hindex, hstored⟩ := h
  have hcap' : (drain s).len ≤ 255 := drain_len_le hcap
  refine ⟨hcap', Memory.wf_writeList hwf _ _, ?_, fun i hi => ?_⟩
  · rw [List.all_eq_true] at hindex ⊢
    have hbound := Memory.writeList_bound (n := Config.bufCap) (fun c hc => of_decide_eq_true (hindex c hc)) s.len
      (s.rxq.take (drainCount s)) (by rw [List.length_take]; exact le_trans (by rw [drain_len]; omega) hcap')
    exact fun c hc => decide_eq_true (hbound c hc)
  · rw [drain_read]
    rw [drain_len] at hi
    split_ifs with hnew
    · have := drainCount_le s
      rw [List.getElem?_eq_getElem (by omega)]; rfl
    · exact hstored i (by omega)

/-- INSERT changes the table and its own result only (R216, R217). -/
theorem insertRegister_frame (a : Word) (k : Kind) (r : Handle) (s : State) : insertRegister a k r s =
    { s with tbl := (insertRegister a k r s).tbl, result := (insertRegister a k r s).result } := by
  unfold insertRegister
  split <;> rfl

/-- An accepted entry keeps the table right (R215 I1, I2, R216). -/
theorem tableOk_insertRegister {a : Word} {k : Kind} {r : Handle} {s : State} (h : TableOk s) :
    TableOk (insertRegister a k r s) := by
  unfold insertRegister
  split
  · rename_i hacc
    obtain ⟨hroom, hfree⟩ := insertAccepts_iff.mp hacc
    refine ⟨by simpa using hroom, ?_⟩
    simpa [List.nodup_append] using ⟨h.2, hfree⟩
  · exact h

/-- Every event other than POLL keeps the invariant. -/
theorem inv_perform {e : Event} {s t : State} (hpoll : e ≠ .poll) (h : Inv s) (hp : perform e s = .next t) : Inv t := by
  obtain ⟨hbuf, htbl, hbits, hwords⟩ := h
  cases e with
  | poll => exact absurd rfl hpoll
  | reset =>
    cases hp
    exact ⟨bufferOk_of_len_le hbuf rfl (Nat.zero_le _), ⟨Nat.zero_le _, List.nodup_nil⟩, hbits, hwords⟩
  | insert a k r =>
    cases hp
    have hframe := insertRegister_frame a k r s
    exact ⟨bufferOk_of_len_le hbuf (by rw [hframe]) (by rw [hframe]), tableOk_insertRegister htbl,
      by rw [hframe]; exact ⟨hbits, hwords⟩⟩
  | setBit r v => cases hp; exact ⟨hbuf, htbl, cellsWf_cellWrite hbits r v, hwords⟩
  | setWord r v => cases hp; exact ⟨hbuf, htbl, hbits, cellsWf_cellWrite hwords r v⟩
  | init a => cases hp; exact ⟨hbuf, htbl, hbits, hwords⟩
  | arrive bytes => cases hp; exact ⟨hbuf, htbl, hbits, hwords⟩

/-- Every end of a POLL keeps the invariant. -/
theorem PollEnd.inv {s0 t : State} (h : PollEnd s0 t) (hinv : Inv s0) : Inv t := by
  obtain ⟨hbuf, htbl, hbits, hwords⟩ := hinv
  obtain ⟨u, ⟨hu, -, -, hbits', hwords'⟩, ht, hlen⟩ := h.frame
  refine ⟨bufferOk_of_len_le (bufferOk_drain hbuf) (by rw [ht, hu]) hlen, ?_, ?_, ?_⟩
  · rw [ht, hu]; exact htbl
  · rw [ht]; exact hbits' hbits
  · rw [ht]; exact hwords' hwords

/-- Settles O52 (R21, R22, R215 I1, I2, log 8). -/
theorem everyStepKeepsTheInvariant : Obligations.EveryStepKeepsTheInvariant := by
  intro s t hinv hstep
  obtain ⟨e, es, -, he, hperform⟩ | ⟨s0, hp, hend⟩ := step_ends hstep
  · exact inv_perform (s := { s with pending := es }) he hinv hperform
  · have hs0 := pollNext_eq hp
    exact hend.inv (by rw [hs0]; exact hinv)

end Sys2Proof.Machine
end

section
/-! PROOFS for spec 00_scope.md: in the envelope no request names enough registers to be refused, since each register
that resolves is an entry of the table at an address of its own. -/

namespace Sys2Proof.Machine

/-- As many registers in a row as resolve stand in the table (R161). -/
theorem le_tbl_length_of_resolves {s : State} {k : Kind} {start n : Nat}
    (h : ∀ j, j < n → (resolve (start + j) k s).isSome = true) : n ≤ s.tbl.length := by
  have hentry : ∀ j, j < n → start + j ≤ 0xFFFF ∧ BitVec.ofNat 16 (start + j) ∈ s.tbl.map Register.addr := fun j hj => by
    obtain ⟨r, hr⟩ := Option.isSome_iff_exists.mp (h j hj)
    exact ⟨(resolve_eq_some hr).1, List.mem_map_of_mem (resolve_mem hr)⟩
  have hnodup : ((List.range n).map fun j => BitVec.ofNat 16 (start + j)).Nodup := by
    refine (List.nodup_map_iff_inj_on List.nodup_range).mpr fun a ha b hb heq => ?_
    have hbound := (hentry a (List.mem_range.mp ha)).1
    have hbound' := (hentry b (List.mem_range.mp hb)).1
    have heq' := congrArg BitVec.toNat heq
    rw [BitVec.toNat_ofNat, BitVec.toNat_ofNat, Nat.mod_eq_of_lt (by omega), Nat.mod_eq_of_lt (by omega)] at heq'
    omega
  have hsubset : ((List.range n).map fun j => BitVec.ofNat 16 (start + j)) ⊆ s.tbl.map Register.addr := by
    intro a ha
    obtain ⟨j, hj, rfl⟩ := List.mem_map.mp ha
    exact (hentry j (List.mem_range.mp hj)).2
  simpa using (List.subperm_of_subset hnodup hsubset).length_le

/-- Of the first `n` registers all resolve, or there is a first that does not (R160). -/
theorem resolvesTo_or_missing (s : State) (k : Kind) (start : Word) (n : Nat) :
    ∃ (hs : Nat → Handle) (m : Nat), m ≤ n ∧ ResolvesTo s k start m hs ∧
      (m = n ∨ m < n ∧ resolve (start.toNat + m) k s = none) := by
  refine ⟨fun i => (resolve (start.toNat + i) k s).getD 0, ?_⟩
  induction n with
  | zero => exact ⟨0, le_rfl, nofun, .inl rfl⟩
  | succ n ih =>
    obtain ⟨m, hm, hr, rfl | ⟨hlt, hnone⟩⟩ := ih
    · cases hlast : resolve (start.toNat + m) k s with
      | none => exact ⟨m, Nat.le_succ m, hr, .inr ⟨Nat.lt_succ_self m, hlast⟩⟩
      | some r =>
        refine ⟨m + 1, le_rfl, fun i hi => ?_, .inl rfl⟩
        rcases Nat.lt_succ_iff_lt_or_eq.mp hi with hi' | rfl
        · exact hr i hi'
        · simp [hlast]
    · exact ⟨m, by omega, hr, .inr ⟨by omega, hnone⟩⟩

section
variable {s : State} (hsmall : s.tbl.length ≤ 124)
include hsmall

/-- No more registers in a row resolve than the table has entries. -/
theorem le_of_resolvesTo {k : Kind} {start : Word} {n : Nat} {hs : Nat → Handle} (hr : ResolvesTo s k start n hs) :
    n ≤ 124 :=
  le_trans (le_tbl_length_of_resolves (k := k) (start := start.toNat) fun j hj => by rw [hr j hj]; rfl) hsmall

theorem readBits_answers (k : Kind) (addr fc : Byte) (start qty : Word) :
    ∃ t, readBits k addr fc start qty s = .next t := by
  obtain h | ⟨d, hd, hr, h⟩ := readBits_cases k addr fc start qty s
  · exact ⟨_, h⟩
  · have hqty := le_tbl_length_of_resolves hr
    exact ⟨_, h.trans (replyData_of_fits hd (by rw [ceil8]; omega))⟩

theorem readWords_answers (k : Kind) (addr fc : Byte) (start qty : Word) :
    ∃ t, readWords k addr fc start qty s = .next t := by
  obtain h | ⟨d, hd, hr, h⟩ := readWords_cases k addr fc start qty s
  · exact ⟨_, h⟩
  · have hqty := le_tbl_length_of_resolves hr
    exact ⟨_, h.trans (replyData_of_fits hd (by omega))⟩

theorem writeMultipleCoils_answers (addr : Byte) (start qty : Word) (bc : Byte) (data : List Byte) :
    ∃ t, exec (.writeMultipleCoils addr start qty bc data) s = .next t := by
  obtain ⟨hs, m, -, hr, rfl | ⟨hm, hnone⟩⟩ := resolvesTo_or_missing s .coil start qty.toNat
  · have hle := le_of_resolvesTo hsmall hr
    exact (writeMultipleCoilsWritesEachCoil addr start qty bc data s hs hr fun i hi => by omega).imp fun _ => And.left
  · have hle := le_of_resolvesTo hsmall hr
    exact (failedCoilWriteIsNotRolledBack addr start qty bc data s hs m hm hr hnone fun i hi => by omega).imp
      fun _ => And.left

theorem writeMultipleRegisters_answers (addr : Byte) (start qty : Word) (bc : Byte) (data : List Byte) :
    ∃ t, exec (.writeMultipleRegisters addr start qty bc data) s = .next t := by
  obtain ⟨hs, m, -, hr, rfl | ⟨hm, hnone⟩⟩ := resolvesTo_or_missing s .holdingRegister start qty.toNat
  · have hle := le_of_resolvesTo hsmall hr
    exact (writeMultipleRegistersWritesEachRegister addr start qty bc data s hs hr fun i hi => by omega).imp
      fun _ => And.left
  · have hle := le_of_resolvesTo hsmall hr
    exact (failedRegisterWriteIsNotRolledBack addr start qty bc data s hs m hm hr hnone fun i hi => by omega).imp
      fun _ => And.left

/-- With at most 124 registers every instruction answers (R9). -/
theorem exec_answers (i : Instr) : ∃ t, exec i s = .next t := by
  cases i with
  | readCoils addr start qty => exact readBits_answers hsmall _ _ _ _ _
  | readDiscreteInputs addr start qty => exact readBits_answers hsmall _ _ _ _ _
  | readHoldingRegisters addr start qty => exact readWords_answers hsmall _ _ _ _ _
  | readInputRegisters addr start qty => exact readWords_answers hsmall _ _ _ _ _
  | writeSingleCoil addr start value =>
    cases hr : resolve start.toNat .coil s with
    | none => exact ⟨_, exec_writeSingleCoil_of_missing addr value hr⟩
    | some h => exact ⟨_, exec_writeSingleCoil_of_resolves addr value hr⟩
  | writeSingleRegister addr start value =>
    cases hr : resolve start.toNat .holdingRegister s with
    | none => exact ⟨_, exec_writeSingleRegister_of_missing addr value hr⟩
    | some h => exact ⟨_, exec_writeSingleRegister_of_resolves addr value hr⟩
  | writeMultipleCoils addr start qty bc data => exact writeMultipleCoils_answers hsmall addr start qty bc data
  | writeMultipleRegisters addr start qty bc data => exact writeMultipleRegisters_answers hsmall addr start qty bc data
  | illegalFunction addr fc => exact ⟨_, rfl⟩

theorem poll_answers : ∃ t, poll s = .next t := by
  cases hd : decode (bufBytes (drain s)) with
  | error r =>
    by_cases hr : r = .badChecksum
    · subst hr; exact ⟨_, poll_of_badChecksum hd⟩
    · exact ⟨_, poll_of_error hd hr⟩
  | ok i =>
    rw [poll_of_ok hd]
    split
    · exact exec_answers (by rwa [drain_tbl]) i
    · exact ⟨_, rfl⟩

end

/-- The next step is a POLL or another event (R38). -/
theorem pollNext_or_event (s : State) :
    (∃ s0, PollNext s s0) ∨ ∃ e es, s.pending = e :: es ∧ e ≠ .poll := by
  cases hpend : s.pending with
  | nil => exact .inl ⟨s, .inl ⟨hpend, rfl⟩⟩
  | cons e es =>
    by_cases he : e = .poll
    · exact .inl ⟨{ s with pending := es }, .inr ⟨he ▸ hpend, rfl⟩⟩
    · exact .inr ⟨e, es, rfl, he⟩

/-- An event other than POLL always answers. -/
theorem perform_answers {e : Event} (he : e ≠ .poll) (s : State) : ∃ t, perform e s = .next t := by
  cases e with
  | poll => exact absurd rfl he
  | _ => exact ⟨_, rfl⟩

/-- Settles O53 (R9, R243): the table has at most 124 entries. -/
theorem envelopeAlwaysAnswers : Obligations.EnvelopeAlwaysAnswers := by
  intro s ⟨_, htbl, _⟩ henv
  have hsmall : s.tbl.length ≤ 124 := htbl.1.trans henv
  obtain ⟨s0, hp⟩ | ⟨e, es, hpend, he⟩ := pollNext_or_event s
  · rw [step_poll hp]
    exact poll_answers (by rw [pollNext_eq hp]; exact hsmall)
  · rw [step_of_event hpend]
    exact perform_answers he _

end Sys2Proof.Machine
end

section
/-! PROOFS for spec 70_reset_and_hazards.md: a stalled buffer holds no frame of its predicted length, and no drain can
make it one. -/

namespace Sys2Proof.Machine

/-- A stalled buffer is not complete (R268). -/
theorem incomplete_of_stalled {s : State} (h : Stalled s) (hlen : s.len ≤ 255) : Incomplete s := by
  have hcap : Config.bufCap = 255 := rfl
  rcases h with ⟨hcode, h8⟩ | ⟨hcode, h7, hbc⟩
  · exact ⟨by omega, .inl ⟨hcode, by omega⟩⟩
  · exact ⟨by omega, .inr ⟨hcode, .inr (by omega)⟩⟩

/-- A drain leaves the bytes that decide the stall (R268). -/
theorem stalled_drain {s : State} (h : Stalled s) : Stalled (drain s) := by
  rcases h with ⟨hcode, h8⟩ | ⟨hcode, h7, hbc⟩
  · rw [← drain_bufByte_old s 1 (by omega)] at hcode
    exact .inl ⟨hcode, by rw [drain_len]; omega⟩
  · rw [← drain_bufByte_old s 1 (by omega)] at hcode
    rw [← drain_bufByte_old s 6 (by omega)] at hbc
    exact .inr ⟨hcode, by rw [drain_len]; omega, hbc.imp_left fun h => by rw [drain_len]; omega⟩

/-- A POLL that finds a stalled buffer waits (R135, R268). -/
theorem step_of_stalled {s s0 : State} (hp : PollNext s s0) (h : Stalled (drain s0)) (hlen : (drain s0).len ≤ 255) :
    step s = .next { drain s0 with result := .poll .noFrame } :=
  incompleteFrameWaits s s0 hp (incomplete_of_stalled h hlen)

/-- The events other than RESET and POLL leave the buffer (R22). -/
theorem perform_buffer {e : Event} {s t : State} (hreset : e ≠ .reset) (hpoll : e ≠ .poll)
    (h : perform e s = .next t) : t.buf = s.buf ∧ t.len = s.len := by
  cases e with
  | reset => exact absurd rfl hreset
  | poll => exact absurd rfl hpoll
  | insert a k r =>
    cases h
    rw [insertRegister_frame]
    exact ⟨rfl, rfl⟩
  | _ => cases h; exact ⟨rfl, rfl⟩

theorem stalled_of_same_buffer {s t : State} (h : Stalled s) (hbuf : t.buf = s.buf) (hlen : t.len = s.len) :
    Stalled t := by
  simpa only [Stalled, bufByte, hbuf, hlen] using h

/-- When an event other than POLL comes next, the step is no POLL. -/
theorem not_pollNext_of_event {s s0 : State} {e : Event} {es : List Event} (hpend : s.pending = e :: es)
    (he : e ≠ .poll) : ¬ PollNext s s0 := by
  rintro (⟨hnil, -⟩ | ⟨hcons, -⟩)
  · rw [hpend] at hnil; cases hnil
  · rw [hpend] at hcons; exact he (List.cons.inj hcons).1

/-- Settles O58 (R268): a POLL drains and waits, and no other event but RESET touches the buffer. -/
theorem onlyResetLeavesAStall : Obligations.OnlyResetLeavesAStall := by
  intro s hinv hstall hreset
  obtain ⟨s0, hp⟩ | ⟨e, es, hpend, he⟩ := pollNext_or_event s
  · have hs0 := pollNext_eq hp
    have hstall0 : Stalled s0 := by rw [hs0]; exact hstall
    have hlen0 : s0.len = s.len := by rw [hs0]
    have hcap : s0.len ≤ 255 := hlen0 ▸ hinv.1.1
    refine ⟨_, step_of_stalled hp (stalled_drain hstall0) (drain_len_le hcap), stalled_drain hstall0, ?_, ?_, fun _ => ?_⟩
    · exact hlen0 ▸ Nat.le_add_right _ _
    · rw [hs0]; rfl
    · rw [hs0]; exact ⟨rfl, rfl, rfl⟩
  · obtain ⟨t, ht⟩ := perform_answers he { s with pending := es }
    obtain ⟨hbuf, hlen⟩ := perform_buffer (fun h => hreset es (h ▸ hpend)) he ht
    exact ⟨t, (step_of_event hpend).trans ht, stalled_of_same_buffer hstall hbuf hlen, hlen.ge,
      perform_txlog (s := { s with pending := es }) he ht,
      fun ⟨s0, hp⟩ => absurd hp (not_pollNext_of_event hpend he)⟩

/-- A buffer that begins with a whole frame and holds more is stalled (R266, R268). -/
theorem stalled_of_proper_extension {s : State} {f : List Byte} (hf : PredictedLength f) (h : f <+: bufBytes s)
    (hlt : f.length < s.len) : Stalled s := by
  obtain ⟨q, hq⟩ := h
  have h8 := hf.eight_le
  have hbyte : ∀ j, j < f.length → f.getD j 0#8 = bufByte s j := fun j hj => by
    rw [← bufBytes_getD s j (by omega) 0#8, ← hq, List.getD_append _ _ _ _ hj]
  rw [PredictedLength, hbyte 1 (by omega), hbyte 6 (by omega)] at hf
  rcases hf with ⟨hc, hlen⟩ | ⟨hc, -, hlen⟩
  · exact .inl ⟨hc, by omega⟩
  · exact .inr ⟨hc, by omega, .inl (by omega)⟩

/-- Settles O59 (R266): the drain takes the request and at least one byte more. -/
theorem overshootStallsTheEngine : Obligations.OvershootStallsTheEngine := by
  intro s s0 i extra hp hwf hreq hshort hextra hempty hrxq
  have hbuf : bufBytes (drain s0) = (encode i ++ extra).take 255 := by rw [bufBytes_drain_of_empty hempty, hrxq]
  have hlen : (drain s0).len = min 255 ((encode i).length + extra.length) := by
    rw [← bufBytes_length, hbuf, List.length_take, List.length_append]
  have hmore := List.length_pos_of_ne_nil hextra
  have hstall : Stalled (drain s0) := by
    refine stalled_of_proper_extension (predictedLength_encode hwf hreq) ?_ (by omega)
    rw [hbuf, List.prefix_take_iff]
    exact ⟨List.prefix_append _ _, hshort.le⟩
  exact ⟨_, step_of_stalled hp hstall (by omega), rfl, by rw [pollNext_eq hp]; rfl, hstall⟩

/-- Settles O60 (R269): the predicted length is more than the buffer can hold. -/
theorem largeByteCountStallsTheEngine : Obligations.LargeByteCountStallsTheEngine := by
  intro s s0 x fc b2 b3 b4 b5 bc hp hcode hbc hempty hrxq
  have hbuf : bufBytes (drain s0) = [x, fc, b2, b3, b4, b5, bc] := by rw [bufBytes_drain_of_empty hempty, hrxq]; rfl
  have hlen : (drain s0).len = 7 := by rw [← bufBytes_length, hbuf]; rfl
  have hcode' : bufByte (drain s0) 1 = fc := by rw [← bufBytes_getD _ 1 (by omega) 0#8, hbuf]; rfl
  have hbc' : bufByte (drain s0) 6 = bc := by rw [← bufBytes_getD _ 6 (by omega) 0#8, hbuf]; rfl
  have hcap : Config.bufCap = 255 := rfl
  have hstall : Stalled (drain s0) := .inr ⟨hcode' ▸ hcode, by omega, .inr (by rw [hbc']; omega)⟩
  exact ⟨_, step_of_stalled hp hstall (by omega), rfl, hlen, hstall⟩

end Sys2Proof.Machine
end
